-- ==== Sys2Proof/Word.lean ====
section
/-! DEFINITION. The word types (00_scope.md section 5.1: every value is an unsigned integer of a stated width). -/

namespace Sys2Proof

/-- A `u64` (00_scope.md R5): the width of every hash-state, schedule, working and constant word. `+` on it is
addition modulo `2^64` (00_scope.md R7). -/
abbrev Word := BitVec 64

/-- A `u8`. -/
abbrev Byte := BitVec 8

end Sys2Proof
end

