-- ==== Sys2Proof/Syntax.lean ====
section
/-! DEFINITION. The instructions: the five host commands (30_encoding.md R71) and the nine micro-operations (R77), one
constructor per row of spec/opcode_table.json. -/

namespace Sys2Proof

/-- An instruction of this hardware (00_scope.md R1). -/
inductive Instr where
  /-- `INIT512`: begin a SHA-512 session (45_commands.md R172). -/
  | init512
  /-- `INIT384`: begin a SHA-384 session (45_commands.md R173). -/
  | init384
  /-- `DATA b`: absorb one message byte (45_commands.md R174). -/
  | data (b : Byte)
  /-- `FINAL`: end of message (45_commands.md R175). -/
  | final
  /-- `RDDG n`: read digest byte `n`; `n` is the 8-bit `arg`, well formed when `n <= 0x3f` (45_commands.md R176). -/
  | rddg (n : Byte)
  /-- `P80`: append the pad marker (40_padder.md R94). -/
  | p80
  /-- `PZ`: zero fill (40_padder.md R95). -/
  | pz
  /-- `PLEN`: write the length field (40_padder.md R96). -/
  | plen
  /-- `LDW`: load the first sixteen schedule words (41_scheduler.md R113). -/
  | ldw
  /-- `EXP`: expand one schedule word (41_scheduler.md R114). -/
  | exp
  /-- `LDV`: copy the hash state into the working variables (42_compressor.md R134). -/
  | ldv
  /-- `RND`: one round (42_compressor.md R135). -/
  | rnd
  /-- `ADD`: add the working variables back into the hash state (42_compressor.md R136). -/
  | add
  /-- `FIN`: load the digest register and close the session (43_finalizer.md R151). -/
  | fin
  deriving DecidableEq, Repr

/-- Where an instruction's bits stand: a 16-bit command word on `CMD` (format `CMD16`, 30_encoding.md R70), or a
4-bit code in the phase register `PH` (format `UOP`, 30_encoding.md R77). -/
inductive Code where
  | cmd16 (word : BitVec 16)
  | uop (ph : BitVec 4)
  deriving DecidableEq, Repr

end Sys2Proof
end

