-- ==== Sys2Proof/WellFormed.lean ====
section
/-! DEFINITION. Well-formedness of command words (30_encoding.md R73), of phase codes (R77, R78), and of instruction terms
(R71's constraint on `arg`). -/

namespace Sys2Proof

/-- `WellFormed(cmd)` (30_encoding.md R73). -/
def wellFormedWord (cmd : BitVec 16) : Bool :=
  (cmd.extractLsb' 8 8 == 0x01#8 && cmd.extractLsb' 1 7 == 0#7)
  || cmd.extractLsb' 8 8 == 0x02#8
  || (cmd.extractLsb' 8 8 == 0x03#8 && cmd.extractLsb' 0 8 == 0#8)
  || (cmd.extractLsb' 8 8 == 0x04#8 && cmd.extractLsb' 6 2 == 0#2)

/-- A phase code that names a micro-operation: 1 to 9 (30_encoding.md R77). 0 is `IDLE`, 10 to 15 are reserved (R78). -/
def wellFormedPhase (ph : BitVec 4) : Bool :=
  1 ≤ ph.toNat && ph.toNat ≤ 9

/-- An instruction term is well formed when its operand fits its field: the index of `RDDG` has `arg[7:6] = 0`
(30_encoding.md R71). Every other operand fills its field. -/
def Instr.wellFormed : Instr → Bool
  | .rddg n => n.toNat ≤ 0x3f
  | .init512 | .init384 | .data _ | .final => true
  | .p80 | .pz | .plen | .ldw | .exp | .ldv | .rnd | .add | .fin => true

end Sys2Proof
end

