-- ==== Sys2Proof/Decode.lean ====
section
/-! DEFINITION. The decoder of both formats, total and rejecting by name (30_encoding.md R70 to R78), and after it the
encoder. -/

namespace Sys2Proof

/-- Why a word or a phase code is no instruction. -/
inductive DecodeError where
  /-- The operation code is unassigned: 0x00 or 0x05 to 0xff (30_encoding.md R74, R75). -/
  | unassignedOp
  /-- `op = 0x01` with `arg >= 0x02` (30_encoding.md R74). -/
  | initArg
  /-- `op = 0x03` with `arg != 0x00` (30_encoding.md R74). -/
  | finalArg
  /-- `op = 0x04` with `arg >= 0x40` (30_encoding.md R74). -/
  | rddgArg
  /-- `PH = 0000`: `IDLE`, no micro-operation (30_encoding.md R77). -/
  | idlePhase
  /-- `PH = 1010` to `1111`: reserved (30_encoding.md R78). -/
  | reservedPhase
  deriving DecidableEq, Repr

/-- The field `op = cmd[15:8]` (30_encoding.md R70). -/
def opField (cmd : BitVec 16) : BitVec 8 := cmd.extractLsb' 8 8

/-- The field `arg = cmd[7:0]`, unsigned (30_encoding.md R70, R72). -/
def argField (cmd : BitVec 16) : BitVec 8 := cmd.extractLsb' 0 8

/-- The command a 16-bit word stands for (30_encoding.md R71, R72, R75). -/
def decodeCommand (cmd : BitVec 16) : Except DecodeError Instr :=
  if opField cmd = 0x01#8 then
    if argField cmd = 0x00#8 then .ok .init512
    else if argField cmd = 0x01#8 then .ok .init384
    else .error .initArg
  else if opField cmd = 0x02#8 then .ok (.data (argField cmd))
  else if opField cmd = 0x03#8 then
    if argField cmd = 0x00#8 then .ok .final else .error .finalArg
  else if opField cmd = 0x04#8 then
    if cmd.extractLsb' 6 2 = 0#2 then .ok (.rddg (argField cmd)) else .error .rddgArg
  else .error .unassignedOp

/-- The micro-operation a phase code names (30_encoding.md R77, R78). -/
def decodeUop (ph : BitVec 4) : Except DecodeError Instr :=
  match ph.toNat with
  | 0 => .error .idlePhase
  | 1 => .ok .p80
  | 2 => .ok .pz
  | 3 => .ok .plen
  | 4 => .ok .ldw
  | 5 => .ok .exp
  | 6 => .ok .ldv
  | 7 => .ok .rnd
  | 8 => .ok .add
  | 9 => .ok .fin
  | _ => .error .reservedPhase

/-- The instruction that bits of either format stand for. -/
def decode : Code → Except DecodeError Instr
  | .cmd16 cmd => decodeCommand cmd
  | .uop ph => decodeUop ph

/-- `cmd = (op << 8) | arg` (30_encoding.md R70). -/
def commandWord (op arg : BitVec 8) : BitVec 16 := op ++ arg

/-- The bits of an instruction (30_encoding.md R71, R77). -/
def encode : Instr → Code
  | .init512 => .cmd16 (commandWord 0x01#8 0x00#8)
  | .init384 => .cmd16 (commandWord 0x01#8 0x01#8)
  | .data b => .cmd16 (commandWord 0x02#8 b)
  | .final => .cmd16 (commandWord 0x03#8 0x00#8)
  | .rddg n => .cmd16 (commandWord 0x04#8 n)
  | .p80 => .uop 0b0001#4
  | .pz => .uop 0b0010#4
  | .plen => .uop 0b0011#4
  | .ldw => .uop 0b0100#4
  | .exp => .uop 0b0101#4
  | .ldv => .uop 0b0110#4
  | .rnd => .uop 0b0111#4
  | .add => .uop 0b1000#4
  | .fin => .uop 0b1001#4

/-- The bits of a table word: a 16-bit row is a command word; a 4-bit row, one byte when rounded up to whole bytes, is a
phase code, whose upper four bits do not exist and must be 0 (log 18). -/
def codeOfTable (nbits w : Nat) : Option Code :=
  if nbits = 16 then
    if w < 65536 then some (.cmd16 (BitVec.ofNat 16 w)) else none
  else if nbits = 8 ∨ nbits = 4 then
    if w < 16 then some (.uop (BitVec.ofNat 4 w)) else none
  else none

/-- The instruction the decoder reads from an opcode-table word (log 18). -/
def decodeTableWord (nbits w : Nat) : Option Instr :=
  match codeOfTable nbits w with
  | none => none
  | some c =>
    match decode c with
    | .ok i => some i
    | .error _ => none

end Sys2Proof
end

