-- ==== Sys2Proof/Machine/Bits.lean ====
section
/-! DEFINITION. Word operations (00_scope.md R8 to R10), big-endian packing (R11) and the six logical functions
(41_scheduler.md R111, R112; 42_compressor.md R125 to R128). `+` on `Word` is R7; `&&&`, `|||`, `^^^`, `~~~` are R10. -/

namespace Sys2Proof.Machine

open Sys2Proof

/-- `ROTR(x, n)`, right circular rotation, `0 < n < 64` (00_scope.md R8); for other `n`, the model's (log 24). -/
def rotr (x : Word) (n : Nat) : Word := (x >>> n) ||| (x <<< (64 - n))

/-- `SHR(x, n)`, logical right shift, `0 < n < 64` (00_scope.md R9); for other `n`, the model's (log 24). -/
def shr (x : Word) (n : Nat) : Word := x >>> n

/-- The unsigned value of a byte string, first byte most significant (00_scope.md R11, R12). -/
def packBE (bytes : List Byte) : Nat := bytes.foldl (fun acc b => acc * 256 + b.toNat) 0

/-- `be64(b0, …, b7)` of eight bytes (00_scope.md R11); of another number of bytes, the model's (log 24). -/
def be64 (bytes : List Byte) : Word := BitVec.ofNat 64 (packBE bytes)

/-- `byte_k(x) = x[63 - 8k : 56 - 8k]` for `k < 8` (00_scope.md R11); for other `k`, the model's (log 24). -/
def byteK (k : Nat) (x : Word) : Byte := x.extractLsb' (56 - 8 * k) 8

/-- Byte `k` of the `n`-byte big-endian form of `v`: `v[8(n-k) - 1 : 8(n-1-k)]` (00_scope.md R12). -/
def byteOfValue (n k v : Nat) : Byte := BitVec.ofNat 8 (v >>> (8 * (n - 1 - k)))

/-- `be128(v)` for `v < 2^128`: sixteen bytes, most significant first (00_scope.md R11); a larger `v` is cut modulo `2^128`,
which is the model's (log 24). -/
def be128 (v : Nat) : List Byte := (List.range 16).map fun k => byteOfValue 16 k v

/-- `SSIG0` (41_scheduler.md R111). -/
def ssig0 (x : Word) : Word := rotr x 1 ^^^ rotr x 8 ^^^ shr x 7

/-- `SSIG1` (41_scheduler.md R112). -/
def ssig1 (x : Word) : Word := rotr x 19 ^^^ rotr x 61 ^^^ shr x 6

/-- `BSIG0` (42_compressor.md R127). -/
def bsig0 (x : Word) : Word := rotr x 28 ^^^ rotr x 34 ^^^ rotr x 39

/-- `BSIG1` (42_compressor.md R128). -/
def bsig1 (x : Word) : Word := rotr x 14 ^^^ rotr x 18 ^^^ rotr x 41

/-- `CH` (42_compressor.md R125). -/
def ch (x y z : Word) : Word := (x &&& y) ^^^ (~~~x &&& z)

/-- `MAJ` (42_compressor.md R126). -/
def maj (x y z : Word) : Word := (x &&& y) ^^^ (x &&& z) ^^^ (y &&& z)

end Sys2Proof.Machine
end

