-- ==== Sys2Proof/Config.lean ====
section
/-! DEFINITION. What an implementation fixes (`LENW`) and the free values: contents that the spec leaves unspecified. -/

namespace Sys2Proof.Config

/-- The width in bits of the message bit-length counter `LEN` (00_scope.md R6): 64 in this hardware (log 7). -/
abbrev LENW : Nat := 64

/-- What `H[j]` holds after the reset numbered `epoch`: unspecified (70_reset_and_hazards.md R231). A FREE VALUE: it
has no body, so nothing can be proved of it. DESIGN CHOICE, log 1, unsafe. -/
opaque unspecifiedH : (epoch : Nat) → (j : Nat) → Word

/-- What `V[j]` holds after the reset numbered `epoch`: unspecified (70_reset_and_hazards.md R231). A FREE VALUE.
DESIGN CHOICE, log 1, unsafe. -/
opaque unspecifiedV : (epoch : Nat) → (j : Nat) → Word

/-- What `W[i]` holds after the reset numbered `epoch`: unspecified (70_reset_and_hazards.md R231). A FREE VALUE.
DESIGN CHOICE, log 1, unsafe. -/
opaque unspecifiedW : (epoch : Nat) → (i : Nat) → Word

/-- What `RSPD` holds after the reset numbered `epoch`: any value (93_implementation_defined.md S7). A FREE VALUE.
DESIGN CHOICE, log 3, unsafe. -/
opaque unspecifiedRSPD : (epoch : Nat) → Byte

end Sys2Proof.Config
end

