-- ==== Sys2Proof/Machine/State.lean ====
section
/-! DEFINITION. The state of the core (10_state.md), the model's two own fields, the reasons the model stops, and reset
(70_reset_and_hazards.md R231). -/

namespace Sys2Proof.Machine

open Sys2Proof

/-- `PH`, the phase register (10_state.md R33): the micro-operation the core performs next, or `idle`. Ten values, as
30_encoding.md R78 prefers; the reserved codes cannot be written down (log 8). -/
inductive Phase where
  | idle | p80 | pz | plen | ldw | exp | ldv | rnd | add | fin
  deriving DecidableEq, Repr

/-- `ST`, the session state (10_state.md R34). -/
inductive SessionState where
  | idle | absorb | done | error
  deriving DecidableEq, Repr

/-- `ALG`, the algorithm select (10_state.md R35). -/
inductive Alg where
  | sha512 | sha384
  deriving DecidableEq, Repr

/-- `ERR`, the fault code (10_state.md R36). Codes 6 and 7 are never produced and cannot be written down (log 8);
`allocationFailure` has a code and no cause (60_exceptions.md R202, log 20). -/
inductive ErrCode where
  | none | inputTooLarge | allocationFailure | cmdIllegal | cmdSequence | digestIndex
  deriving DecidableEq, Repr

/-- What the input ports read in one step (10_state.md R42). -/
structure Pins where
  /-- `RST` is asserted. -/
  rst : Bool
  /-- `CMD_VALID`: the host presents a word. -/
  cmdValid : Bool
  /-- `CMD`, the word presented. -/
  cmd : BitVec 16
  deriving DecidableEq, Repr

/-- A byte space (00_scope.md R12, 20_memory.md R50) as (index, byte) pairs with strictly rising indices. An index
that is not listed holds NO VALUE (10_state.md R45, log 2). -/
abbrev Memory := List Host.Cell

/-- The state of the core, and the model's own fields `inputs` and `epoch`. -/
structure State where
  /-- `H[0..7]`, the hash state (10_state.md R20). -/
  h : Vector Word 8
  /-- `V[0..7] = a..h`, the working state (10_state.md R21). -/
  v : Vector Word 8
  /-- `W[0..79]`, the message schedule (10_state.md R22). -/
  w : Vector Word 80
  /-- `BUF[0..127]`, the block buffer (10_state.md R25). -/
  buf : Memory
  /-- `DG[0..63]`, the digest register (10_state.md R26). -/
  dg : Memory
  /-- `LEN`, message bits absorbed (10_state.md R30). -/
  len : BitVec Config.LENW
  /-- `CNT`, valid bytes in `BUF` (10_state.md R31). -/
  cnt : BitVec 8
  /-- `T`, schedule or round index (10_state.md R32). -/
  t : BitVec 7
  /-- `PH` (10_state.md R33). -/
  ph : Phase
  /-- `ST` (10_state.md R34). -/
  st : SessionState
  /-- `ALG` (10_state.md R35). -/
  alg : Alg
  /-- `ERR` (10_state.md R36). -/
  err : ErrCode
  /-- `FINF`, final in progress (10_state.md R37). -/
  finf : Bool
  /-- `LW`, length written (10_state.md R38). -/
  lw : Bool
  /-- `RSPV`, response valid (10_state.md R39). -/
  rspv : Bool
  /-- `RSPD`, response byte (10_state.md R39). -/
  rspd : Byte
  /-- The MODEL's own: what the input ports read in the coming steps, first sample first; past the end they are quiet
  (log 5). -/
  inputs : List Pins
  /-- The MODEL's own: the number of resets since the first one; it selects the free values that unspecified storage
  holds after a reset (log 4). -/
  epoch : Nat
  deriving DecidableEq, Repr

/-- Why the MODEL stops. The spec's own faults are no stops: the machine takes them (60_exceptions.md R204). -/
inductive Fault where
  /-- Raised by `LDW` and `RDDG` when they read a byte of `BUF` or `DG` that nothing has written since reset. The spec
  asks for this fault of the model and says it is unreachable (10_state.md R45). Safe. -/
  | unwrittenByte
  /-- Raised by `DATA` and `P80` with `CNT >= 128`, by `EXP` with `T` outside 16..79 and by `RND` with `T` outside
  0..79: an index outside its space, which no rule ever forms (00_scope.md R12). Safe. -/
  | indexOutOfSpace
  deriving DecidableEq, Repr

/-- Why an instruction has no meaning. -/
inductive Refusal where
  /-- Raised by an arm of `exec` that has no meaning; no arm of this model does. Safe. -/
  | notModelled (mnemonic : String)
  deriving DecidableEq, Repr

/-- How a step ends. -/
abbrev Result := Host.Outcome State Fault Refusal

/-- The state after the reset numbered `epoch` (70_reset_and_hazards.md R231), with `inputs` still to come: control
registers 0; `BUF` and `DG` hold no value; `H`, `V`, `W`, `RSPD` hold free values (logs 1 to 4). -/
def State.afterReset (epoch : Nat) (inputs : List Pins) : State where
  h := Vector.ofFn fun j => Config.unspecifiedH epoch j.val
  v := Vector.ofFn fun j => Config.unspecifiedV epoch j.val
  w := Vector.ofFn fun i => Config.unspecifiedW epoch i.val
  buf := []
  dg := []
  len := 0
  cnt := 0
  t := 0
  ph := .idle
  st := .idle
  alg := .sha512
  err := .none
  finf := false
  lw := false
  rspv := false
  rspd := Config.unspecifiedRSPD epoch
  inputs := inputs
  epoch := epoch

/-- The machine right after its first reset, with quiet input ports (log 5, log 19). -/
def State.reset : State := State.afterReset 0 []

end Sys2Proof.Machine
end

