-- ==== Sys2Proof/Machine/Rom.lean ====
section
/-! DEFINITION. The ROMs (10_state.md R23, R24). The spec supplies their contents "from general knowledge, not in source"
(44_variants_constants.md R160 to R162; log 11). -/

namespace Sys2Proof.Machine

open Sys2Proof

/-- A row of the table of round constants as 44_variants_constants.md R160 prints it: the row labelled `first` to
`first + 3` holds `K[first]` to `K[first + 3]`. -/
structure RoundConstantRow where
  first : Nat
  k0 : Word
  k1 : Word
  k2 : Word
  k3 : Word
  deriving DecidableEq, Repr

/-- The rows labelled 0 to 19 (44_variants_constants.md R160). -/
def roundConstantRows0 : List RoundConstantRow :=
  [ { first := 0, k0 := 0x428a2f98d728ae22, k1 := 0x7137449123ef65cd,
      k2 := 0xb5c0fbcfec4d3b2f, k3 := 0xe9b5dba58189dbbc },
    { first := 4, k0 := 0x3956c25bf348b538, k1 := 0x59f111f1b605d019,
      k2 := 0x923f82a4af194f9b, k3 := 0xab1c5ed5da6d8118 },
    { first := 8, k0 := 0xd807aa98a3030242, k1 := 0x12835b0145706fbe,
      k2 := 0x243185be4ee4b28c, k3 := 0x550c7dc3d5ffb4e2 },
    { first := 12, k0 := 0x72be5d74f27b896f, k1 := 0x80deb1fe3b1696b1,
      k2 := 0x9bdc06a725c71235, k3 := 0xc19bf174cf692694 },
    { first := 16, k0 := 0xe49b69c19ef14ad2, k1 := 0xefbe4786384f25e3,
      k2 := 0x0fc19dc68b8cd5b5, k3 := 0x240ca1cc77ac9c65 } ]

/-- The rows labelled 20 to 39 (44_variants_constants.md R160). -/
def roundConstantRows1 : List RoundConstantRow :=
  [ { first := 20, k0 := 0x2de92c6f592b0275, k1 := 0x4a7484aa6ea6e483,
      k2 := 0x5cb0a9dcbd41fbd4, k3 := 0x76f988da831153b5 },
    { first := 24, k0 := 0x983e5152ee66dfab, k1 := 0xa831c66d2db43210,
      k2 := 0xb00327c898fb213f, k3 := 0xbf597fc7beef0ee4 },
    { first := 28, k0 := 0xc6e00bf33da88fc2, k1 := 0xd5a79147930aa725,
      k2 := 0x06ca6351e003826f, k3 := 0x142929670a0e6e70 },
    { first := 32, k0 := 0x27b70a8546d22ffc, k1 := 0x2e1b21385c26c926,
      k2 := 0x4d2c6dfc5ac42aed, k3 := 0x53380d139d95b3df },
    { first := 36, k0 := 0x650a73548baf63de, k1 := 0x766a0abb3c77b2a8,
      k2 := 0x81c2c92e47edaee6, k3 := 0x92722c851482353b } ]

/-- The rows labelled 40 to 59 (44_variants_constants.md R160). -/
def roundConstantRows2 : List RoundConstantRow :=
  [ { first := 40, k0 := 0xa2bfe8a14cf10364, k1 := 0xa81a664bbc423001,
      k2 := 0xc24b8b70d0f89791, k3 := 0xc76c51a30654be30 },
    { first := 44, k0 := 0xd192e819d6ef5218, k1 := 0xd69906245565a910,
      k2 := 0xf40e35855771202a, k3 := 0x106aa07032bbd1b8 },
    { first := 48, k0 := 0x19a4c116b8d2d0c8, k1 := 0x1e376c085141ab53,
      k2 := 0x2748774cdf8eeb99, k3 := 0x34b0bcb5e19b48a8 },
    { first := 52, k0 := 0x391c0cb3c5c95a63, k1 := 0x4ed8aa4ae3418acb,
      k2 := 0x5b9cca4f7763e373, k3 := 0x682e6ff3d6b2b8a3 },
    { first := 56, k0 := 0x748f82ee5defb2fc, k1 := 0x78a5636f43172f60,
      k2 := 0x84c87814a1f0ab72, k3 := 0x8cc702081a6439ec } ]

/-- The rows labelled 60 to 79 (44_variants_constants.md R160). -/
def roundConstantRows3 : List RoundConstantRow :=
  [ { first := 60, k0 := 0x90befffa23631e28, k1 := 0xa4506cebde82bde9,
      k2 := 0xbef9a3f7b2c67915, k3 := 0xc67178f2e372532b },
    { first := 64, k0 := 0xca273eceea26619c, k1 := 0xd186b8c721c0c207,
      k2 := 0xeada7dd6cde0eb1e, k3 := 0xf57d4f7fee6ed178 },
    { first := 68, k0 := 0x06f067aa72176fba, k1 := 0x0a637dc5a2c898a6,
      k2 := 0x113f9804bef90dae, k3 := 0x1b710b35131c471b },
    { first := 72, k0 := 0x28db77f523047d84, k1 := 0x32caab7b40c72493,
      k2 := 0x3c9ebe0a15c9bebc, k3 := 0x431d67c49c100d4c },
    { first := 76, k0 := 0x4cc5d4becb3e42b6, k1 := 0x597f299cfc657e2a,
      k2 := 0x5fcb6fab3ad6faec, k3 := 0x6c44198c4a475817 } ]

/-- The table of round constants, row by row (44_variants_constants.md R160). -/
def roundConstantRows : List RoundConstantRow :=
  roundConstantRows0 ++ roundConstantRows1 ++ roundConstantRows2 ++ roundConstantRows3

/-- The four words of a row, in the order of their index. -/
def RoundConstantRow.words (r : RoundConstantRow) : List Word := [r.k0, r.k1, r.k2, r.k3]

/-- `K[0..79]`, the round constants: the table read row by row (44_variants_constants.md R160). -/
def roundConstants : List Word := roundConstantRows.flatMap RoundConstantRow.words

/-- `K[i]` for `i < 80`; for other `i`, 0, which is the model's and which no rule reads (log 24). -/
def roundConstant (i : Nat) : Word := roundConstants.getD i 0

/-- `IV[0][0..7]`, the initial hash value of SHA-512 (44_variants_constants.md R161). -/
def ivSha512 : Vector Word 8 :=
  #v[
    0x6a09e667f3bcc908, 0xbb67ae8584caa73b, 0x3c6ef372fe94f82b, 0xa54ff53a5f1d36f1,
    0x510e527fade682d1, 0x9b05688c2b3e6c1f, 0x1f83d9abfb41bd6b, 0x5be0cd19137e2179]

/-- `IV[1][0..7]`, the initial hash value of SHA-384 (44_variants_constants.md R162). -/
def ivSha384 : Vector Word 8 :=
  #v[
    0xcbbb9d5dc1059ed8, 0x629a292a367cd507, 0x9159015a3070dd17, 0x152fecd8f70e5939,
    0x67332667ffc00b31, 0x8eb44a8768581511, 0xdb0c2e0d64f98fa7, 0x47b5481dbefa4fa4]

/-- `IV[alg]` (10_state.md R24, 44_variants_constants.md R163). -/
def iv : Alg → Vector Word 8
  | .sha512 => ivSha512
  | .sha384 => ivSha384

end Sys2Proof.Machine
end

