-- ==== Sys2Proof/Machine/Ops.lean ====
section
/-! DEFINITION. The named operations over the byte spaces and the control registers: byte access (00_scope.md R12), taking a
fault and recovering from one (60_exceptions.md R204, R206), the order of checks (30_encoding.md R76), reset (R230). -/

namespace Sys2Proof.Machine

open Sys2Proof

/-- The byte at index `a`; `none` where nothing has written it since reset (10_state.md R45, log 2). -/
def Memory.read : Memory → Nat → Option Byte
  | [], _ => none
  | (x, b) :: rest, a => if x = a then some b else Memory.read rest a

/-- Write byte `b` at index `a`, keeping the indices strictly rising. -/
def Memory.write : Memory → Nat → Byte → Memory
  | [], a, b => [(a, b)]
  | (x, y) :: rest, a, b =>
    if a < x then (a, b) :: (x, y) :: rest
    else if a = x then (a, b) :: rest
    else (x, y) :: Memory.write rest a b

/-- The canonical form: every index is above all before it. An unlisted index holds no value, so no entry can equal
what an unlisted index reads as. -/
def Memory.wf : Memory → Bool
  | [] => true
  | (x, _) :: rest => rest.all (fun c => decide (x < c.1)) && Memory.wf rest

/-- The two byte spaces (00_scope.md R12, 20_memory.md R50). -/
inductive Space where
  | buf | dg
  deriving DecidableEq, Repr

/-- How many bytes a byte space has (20_memory.md R50). -/
def Space.size : Space → Nat
  | .buf => 128
  | .dg => 64

/-- The contents of a byte space. -/
def State.space (s : State) : Space → Memory
  | .buf => s.buf
  | .dg => s.dg

/-- Replace the contents of a byte space. -/
def State.setSpace (s : State) (S : Space) (m : Memory) : State :=
  match S with
  | .buf => { s with buf := m }
  | .dg => { s with dg := m }

/-- `MemRead(S, a, 1)`. An index outside the space, and a byte that holds no value, stop the model
(00_scope.md R12, 10_state.md R45). -/
def readByte (s : State) (S : Space) (a : Nat) : Except Fault Byte :=
  if a < S.size then
    match (s.space S).read a with
    | some b => .ok b
    | none => .error .unwrittenByte
  else .error .indexOutOfSpace

/-- `MemRead(S, addr, n) = sum over k in [0, n) of S[addr + k] * 2^(8*(n - 1 - k))` (00_scope.md R12). -/
def memRead (s : State) (S : Space) (addr : Nat) : Nat → Except Fault Nat
  | 0 => .ok 0
  | n + 1 =>
    match memRead s S addr n with
    | .error f => .error f
    | .ok v =>
      match readByte s S (addr + n) with
      | .error f => .error f
      | .ok b => .ok (v * 256 + b.toNat)

/-- Bytes `addr` to `addr + n - 1` become the `n`-byte big-endian form of `v`. -/
def Memory.writeBE (m : Memory) (addr n v : Nat) : Memory :=
  (List.range n).foldl (fun acc k => Memory.write acc (addr + k) (byteOfValue n k v)) m

/-- `MemWrite(S, addr, n, v)` (00_scope.md R12), for an index range that the caller's rule keeps inside the space. -/
def memWrite (s : State) (S : Space) (addr n v : Nat) : State :=
  s.setSpace S (Memory.writeBE (s.space S) addr n v)

/-- Bytes `lo` to `hi - 1` become zero. -/
def Memory.zeroRange (m : Memory) (lo hi : Nat) : Memory :=
  (List.range (hi - lo)).foldl (fun acc k => Memory.write acc (lo + k) 0x00#8) m

/-- `for n in [lo, hi): MemWrite(S, n, 1, 0x00)`. -/
def zeroFill (s : State) (S : Space) (lo hi : Nat) : State :=
  s.setSpace S (Memory.zeroRange (s.space S) lo hi)

/-- Append byte `b` to the block buffer: `MemWrite(BUF, CNT, 1, b)`, `CNT <- CNT + 1`. There is no `BUF[128]`: with
`CNT >= 128`, which no reachable append meets (00_scope.md R12, 10_state.md R31), the model stops (log 9). -/
def appendByte (s : State) (b : Byte) : Except Fault State :=
  if s.cnt.toNat < Space.buf.size then
    .ok { memWrite s .buf s.cnt.toNat 1 b.toNat with cnt := s.cnt + 1 }
  else .error .indexOutOfSpace

/-- Go on with a value that a read gave, or stop with the read's fault. -/
def orFault {α : Type} (r : Except Fault α) (k : α → Result) : Result :=
  match r with
  | .ok a => k a
  | .error f => .fault f

/-- `RSPV <- 0`: what every accepted command does first (30_encoding.md R76 item 1, 10_state.md R39). -/
def clearResponse (s : State) : State := { s with rspv := false }

/-- TAKING A FAULT, `raise F` (60_exceptions.md R204, 00_scope.md R13): the three writes and nothing else. There is no
vector, no handler and no saved state. -/
def takeFault (code : ErrCode) (s : State) : State :=
  { s with rspv := false, st := .error, err := code }

/-- RETURNING FROM A FAULT is opening a fresh session (60_exceptions.md R206); so is every `INIT*`
(45_commands.md R172, R173). `BUF`, `W`, `V`, `DG`, `RSPD` are not written and `PH` stays as it is. -/
def startSession (alg : Alg) (s : State) : State :=
  { s with
    rspv := false
    h := iv alg
    alg := alg
    len := 0
    cnt := 0
    t := 0
    finf := false
    lw := false
    err := .none
    st := .absorb }

/-- Items 1, 3 and 5 of the order of checks (30_encoding.md R76) for a well-formed command that is legal in one session
state: `RSPV <- 0`; ignored in `ERROR` (60_exceptions.md R205); `CMD_SEQUENCE` in another state; else the command's own
checks and effect. -/
def ifSession (legal : SessionState) (s : State) (body : State → Result) : Result :=
  if s.st = .error then .next (clearResponse s)
  else if s.st = legal then body (clearResponse s)
  else .next (takeFault .cmdSequence s)

/-- Items 1, 3 and 4 of the order of checks (30_encoding.md R76) for an ill-formed word: ignored in `ERROR`, else
`CMD_ILLEGAL` (30_encoding.md R74). -/
def acceptIllFormed (s : State) : State :=
  if s.st = .error then clearResponse s else takeFault .cmdIllegal s

/-- The reset state (70_reset_and_hazards.md R230, R231): whatever was in progress is lost; unspecified storage holds
the next epoch's free values (log 4). -/
def resetCore (s : State) : State := State.afterReset (s.epoch + 1) s.inputs

/-- What the input ports read in this step; quiet past the end of the list (log 5). -/
def currentPins (s : State) : Pins := s.inputs.headD ⟨false, false, 0⟩

/-- The coming steps' port samples, this step's dropped (log 5). -/
def dropPins (s : State) : State := { s with inputs := s.inputs.tail }

end Sys2Proof.Machine
end

