-- ==== Sys2Proof/Machine/Operands.lean ====
section
/-! DEFINITION. Operand forms: the operands that instructions take from the state, by an index in `CNT`, `T` or the
command word (30_encoding.md R72, R77). -/

namespace Sys2Proof.Machine

open Sys2Proof

/-- `DLEN(ALG)`: the digest length in bytes (00_scope.md R5, 44_variants_constants.md R163). -/
def dlen : Alg → Nat
  | .sha512 => 64
  | .sha384 => 48

/-- `LEN = 2^LENW - 8` for a counter of any width: one more byte would not fit (45_commands.md R174, 60_exceptions.md
R201; 00_scope.md R6 for the widths). -/
def lenFull {lenw : Nat} (len : BitVec lenw) : Bool := len.toNat == 2 ^ lenw - 8

/-- The length field's value: `zext_128(LEN)` (40_padder.md R96). -/
def lengthField {lenw : Nat} (len : BitVec lenw) : BitVec 128 := len.setWidth 128

/-- Word `j` of the block in the buffer: `MemRead(BUF, 8*j, 8)` (10_state.md R25). -/
def blockWord (s : State) (j : Nat) : Except Fault Word :=
  match memRead s .buf (8 * j) 8 with
  | .ok v => .ok (BitVec.ofNat 64 v)
  | .error f => .error f

/-- `for j in [0, n): W[j] <- MemRead(BUF, 8*j, 8)` (41_scheduler.md R113). -/
def loadedSchedule (s : State) : Nat → Except Fault (Vector Word 80)
  | 0 => .ok s.w
  | j + 1 =>
    match loadedSchedule s j with
    | .error f => .error f
    | .ok w =>
      match blockWord s j with
      | .error f => .error f
      | .ok x => .ok (w.setIfInBounds j x)

/-- `SSIG1(W[T-2]) + W[T-7] + SSIG0(W[T-15]) + W[T-16]` (41_scheduler.md R114). `T` outside 16..79 would index outside
`W`; no reachable `EXP` meets it (10_state.md R32), and the model stops (log 9). -/
def expandedWord (w : Vector Word 80) (t : Nat) : Except Fault Word :=
  if h : 16 ≤ t ∧ t < 80 then
    .ok (ssig1 w[t - 2] + w[t - 7] + ssig0 w[t - 15] + w[t - 16])
  else .error .indexOutOfSpace

/-- `K[T]` and `W[T]` (42_compressor.md R135). `T` outside 0..79 would index outside `K` and `W`; no reachable `RND`
meets it (10_state.md R32), and the model stops (log 9). -/
def roundOperands (w : Vector Word 80) (t : Nat) : Except Fault (Word × Word) :=
  if h : t < 80 then .ok (roundConstant t, w[t]) else .error .indexOutOfSpace

end Sys2Proof.Machine
end

