-- ==== Sys2Proof/Machine/Commands.lean ====
section
/-! DEFINITION. The five host commands (45_commands.md R172 to R176). A meaning is the command's effect once accepted; that a
command is accepted only with `PH = IDLE` and `RST` not asserted (R170) is Step's (log 12). -/

namespace Sys2Proof.Machine

open Sys2Proof

/-- `INIT512` (45_commands.md R172): legal in every session state. -/
def execInit512 (s : State) : Result := .next (startSession .sha512 s)

/-- `INIT384` (45_commands.md R173): legal in every session state. -/
def execInit384 (s : State) : Result := .next (startSession .sha384 s)

/-- The effect of `DATA b` in `ABSORB` (45_commands.md R174). -/
def absorbByte (b : Byte) (s : State) : Result :=
  if lenFull s.len then .next (takeFault .inputTooLarge s)
  else orFault (appendByte s b) fun s' =>
    .next { s' with
      len := s.len + 8
      ph := if s.cnt + 1 = 128 then .ldw else s.ph }

/-- `DATA b` (45_commands.md R174). -/
def execData (b : Byte) (s : State) : Result := ifSession .absorb s (absorbByte b)

/-- The effect of `FINAL` in `ABSORB` (45_commands.md R175). -/
def beginFinal (s : State) : Result :=
  .next { s with finf := true, lw := false, ph := .p80 }

/-- `FINAL` (45_commands.md R175). -/
def execFinal (s : State) : Result := ifSession .absorb s beginFinal

/-- The effect of `RDDG n` in `DONE` (45_commands.md R176). -/
def respond (n : Byte) (s : State) : Result :=
  if dlen s.alg ≤ n.toNat then .next (takeFault .digestIndex s)
  else orFault (readByte s .dg n.toNat) fun b =>
    .next { s with rspd := b, rspv := true }

/-- `RDDG n` (45_commands.md R176). -/
def execRddg (n : Byte) (s : State) : Result := ifSession .done s (respond n)

end Sys2Proof.Machine
end

