-- ==== Sys2Proof/Machine/Compressor.lean ====
section
/-! DEFINITION. The Compressor's micro-operations (42_compressor.md R134 to R136). -/

namespace Sys2Proof.Machine

open Sys2Proof

/-- `Round(v, k, w)` (42_compressor.md R129): all eight new words from the eight old ones. -/
def roundStep (v : Vector Word 8) (k w : Word) : Vector Word 8 :=
  let t1 := v[7] + bsig1 v[4] + ch v[4] v[5] v[6] + k + w
  let t2 := bsig0 v[0] + maj v[0] v[1] v[2]
  #v[t1 + t2, v[0], v[1], v[2], v[3] + t1, v[4], v[5], v[6]]

/-- The word-by-word sum of the hash state and the working state (42_compressor.md R130, R136). -/
def addBack (h v : Vector Word 8) : Vector Word 8 := Vector.ofFn fun j => h[j] + v[j]

/-- Where the sequencer goes after a block (42_compressor.md R136, R138). -/
def afterBlock (finf lw : Bool) : Phase :=
  if finf then (if lw then .fin else .pz) else .idle

/-- `LDV`: copy the hash state into the working variables (42_compressor.md R134). -/
def execLdv (s : State) : Result := .next { s with v := s.h, t := 0, ph := .rnd }

/-- `RND`: one round (42_compressor.md R135). -/
def execRnd (s : State) : Result :=
  orFault (roundOperands s.w s.t.toNat) fun kw =>
    .next { s with
      v := roundStep s.v kw.1 kw.2
      t := s.t + 1
      ph := if s.t + 1 = 80 then .add else s.ph }

/-- `ADD`: add the working variables back into the hash state, and leave the block (42_compressor.md R136). -/
def execAdd (s : State) : Result :=
  .next { s with h := addBack s.h s.v, cnt := 0, t := 0, ph := afterBlock s.finf s.lw }

end Sys2Proof.Machine
end

