-- ==== Sys2Proof/Machine/Finalizer.lean ====
section
/-! DEFINITION. The Digest Finalizer's micro-operation (43_finalizer.md R151). -/

namespace Sys2Proof.Machine

open Sys2Proof

/-- `for j in [0, 8): MemWrite(DG, 8*j, 8, H[j])` (43_finalizer.md R151). -/
def Memory.writeWords (m : Memory) (h : Vector Word 8) : Memory :=
  (List.finRange 8).foldl (fun acc j => Memory.writeBE acc (8 * j.val) 8 h[j].toNat) m

/-- The digest register loaded: all eight words, and for SHA-384 zero in `DG[48..63]` after that
(43_finalizer.md R151). -/
def loadedDigest (alg : Alg) (h : Vector Word 8) (m : Memory) : Memory :=
  match alg with
  | .sha512 => m.writeWords h
  | .sha384 => Memory.zeroRange (m.writeWords h) 48 64

/-- `FIN`: load the digest register and close the session (43_finalizer.md R151). -/
def execFin (s : State) : Result :=
  .next { s with
    dg := loadedDigest s.alg s.h s.dg
    st := .done
    finf := false
    lw := false
    ph := .idle }

end Sys2Proof.Machine
end

