-- ==== Sys2Proof/Machine/Padder.lean ====
section
/-! DEFINITION. The Padder's micro-operations (40_padder.md R94 to R96). -/

namespace Sys2Proof.Machine

open Sys2Proof

/-- `P80`: append the pad marker (40_padder.md R94). -/
def execP80 (s : State) : Result :=
  orFault (appendByte s 0x80#8) fun s' => .next { s' with ph := .pz }

/-- `PZ`: zero fill (40_padder.md R95). `CNT > 128`, which no state reaches, takes the second branch as the pseudocode
says (log 15). -/
def execPz (s : State) : Result :=
  if s.cnt.toNat ≤ 112 then
    .next { zeroFill s .buf s.cnt.toNat 112 with cnt := 112, ph := .plen }
  else
    .next { zeroFill s .buf s.cnt.toNat 128 with cnt := 128, ph := .ldw }

/-- `PLEN`: write the length field (40_padder.md R96). -/
def execPlen (s : State) : Result :=
  .next { memWrite s .buf 112 16 (lengthField s.len).toNat with cnt := 128, lw := true, ph := .ldw }

end Sys2Proof.Machine
end

