-- ==== Sys2Proof/Machine/Scheduler.lean ====
section
/-! DEFINITION. The Message Scheduler's micro-operations (41_scheduler.md R113, R114). -/

namespace Sys2Proof.Machine

open Sys2Proof

/-- `LDW`: load the first sixteen schedule words from the block buffer (41_scheduler.md R113). -/
def execLdw (s : State) : Result :=
  orFault (loadedSchedule s 16) fun w => .next { s with w := w, t := 16, ph := .exp }

/-- `EXP`: expand one schedule word (41_scheduler.md R114). -/
def execExp (s : State) : Result :=
  orFault (expandedWord s.w s.t.toNat) fun x =>
    .next { s with
      w := s.w.setIfInBounds s.t.toNat x
      t := s.t + 1
      ph := if s.t + 1 = 80 then .ldv else s.ph }

end Sys2Proof.Machine
end

