-- ==== Sys2Proof/Machine/Dispatch.lean ====
section
/-! DEFINITION. One arm per instruction (spec/opcode_table.json), each one direct call of its meaning. -/

namespace Sys2Proof.Machine

open Sys2Proof

/-- The meaning of an instruction. -/
def exec (i : Instr) (s : State) : Host.Outcome State Fault Refusal :=
  match i with
  | .init512 => Sys2Proof.Machine.execInit512 s
  | .init384 => Sys2Proof.Machine.execInit384 s
  | .data b => Sys2Proof.Machine.execData b s
  | .final => Sys2Proof.Machine.execFinal s
  | .rddg n => Sys2Proof.Machine.execRddg n s
  | .p80 => Sys2Proof.Machine.execP80 s
  | .pz => Sys2Proof.Machine.execPz s
  | .plen => Sys2Proof.Machine.execPlen s
  | .ldw => Sys2Proof.Machine.execLdw s
  | .exp => Sys2Proof.Machine.execExp s
  | .ldv => Sys2Proof.Machine.execLdv s
  | .rnd => Sys2Proof.Machine.execRnd s
  | .add => Sys2Proof.Machine.execAdd s
  | .fin => Sys2Proof.Machine.execFin s

end Sys2Proof.Machine
end

