-- ==== Sys2Proof/Machine/Flags.lean ====
section
/-! DEFINITION. The host-visible view: `BUSY`, `CMD_READY`, `STATUS` and the output ports (10_state.md R39 to R42), and the
codes of the control registers (R33 to R36). -/

namespace Sys2Proof.Machine

open Sys2Proof

/-- The 4-bit code of `PH` (10_state.md R33). -/
def Phase.code : Phase → BitVec 4
  | .idle => 0x0#4
  | .p80 => 0x1#4
  | .pz => 0x2#4
  | .plen => 0x3#4
  | .ldw => 0x4#4
  | .exp => 0x5#4
  | .ldv => 0x6#4
  | .rnd => 0x7#4
  | .add => 0x8#4
  | .fin => 0x9#4

/-- The phase with a given code; the reserved codes have none (30_encoding.md R78). -/
def phaseOfCode (c : BitVec 4) : Option Phase :=
  [Phase.idle, .p80, .pz, .plen, .ldw, .exp, .ldv, .rnd, .add, .fin][c.toNat]?

/-- The 2-bit code of `ST` (10_state.md R34). -/
def SessionState.code : SessionState → BitVec 2
  | .idle => 0#2
  | .absorb => 1#2
  | .done => 2#2
  | .error => 3#2

/-- The bit `ALG` (10_state.md R35). -/
def Alg.code : Alg → BitVec 1
  | .sha512 => 0#1
  | .sha384 => 1#1

/-- The 3-bit code of `ERR` (10_state.md R36). -/
def ErrCode.code : ErrCode → BitVec 3
  | .none => 0#3
  | .inputTooLarge => 1#3
  | .allocationFailure => 2#3
  | .cmdIllegal => 3#3
  | .cmdSequence => 4#3
  | .digestIndex => 5#3

/-- `BUSY = (PH != IDLE)` (10_state.md R41). -/
def busy (s : State) : Bool := s.ph != .idle

/-- `CMD_READY = not BUSY` (10_state.md R41). -/
def cmdReady (s : State) : Bool := !busy s

/-- `STATUS`: `CNT` in 15:8, 0 in 7, `ERR` in 6:4, `BUSY` in 3, `ALG` in 2, `ST` in 1:0 (10_state.md R40). -/
def statusWord (s : State) : BitVec 16 :=
  s.cnt ++ 0#1 ++ s.err.code ++ BitVec.ofBool (busy s) ++ s.alg.code ++ s.st.code

/-- What the output ports drive (10_state.md R42): the only state the host can see. -/
structure Ports where
  /-- `CMD_READY`. -/
  cmdReady : Bool
  /-- `RSP_VALID`. -/
  rspValid : Bool
  /-- `RSP_DATA`. -/
  rspData : Byte
  /-- `STATUS`. -/
  status : BitVec 16
  deriving DecidableEq, Repr

/-- The output ports of a state (10_state.md R42). -/
def outputPorts (s : State) : Ports :=
  ⟨cmdReady s, s.rspv, s.rspd, statusWord s⟩

end Sys2Proof.Machine
end

