-- ==== Sys2Proof/Machine/Control.lean ====
section
/-! DEFINITION. What happens in one step (00_scope.md R14): reset, else the micro-operation that `PH` names, else the
acceptance of a command (45_commands.md R170), else nothing (60_exceptions.md R212). -/

namespace Sys2Proof.Machine

open Sys2Proof

/-- The micro-operation `PH` names; none in `IDLE` (30_encoding.md R77). -/
def fetchUop (s : State) : Except DecodeError Instr := decodeUop s.ph.code

/-- The step that accepts a command word (45_commands.md R170, 30_encoding.md R76). -/
def acceptWord (cmd : BitVec 16) (s : State) : Result :=
  match decodeCommand cmd with
  | .ok i => exec i s
  | .error _ => .next (acceptIllFormed s)

/-- One step with the ports reading `p`: `RST` overrides everything (70_reset_and_hazards.md R230, 90_conflicts.md C12);
while `PH != IDLE` the core runs its micro-operation and a presented word is not taken (R240); in `PH = IDLE` a presented
word is accepted, and without one all state is retained (60_exceptions.md R212). -/
def stepWith (p : Pins) (s : State) : Result :=
  if p.rst then .next (resetCore s)
  else
    match fetchUop s with
    | .ok i => exec i s
    | .error _ => if p.cmdValid then acceptWord p.cmd s else .next s

/-- `CMD_VALID = 1` with a word on `CMD`, `RST` not asserted. -/
def presenting (cmd : BitVec 16) : Pins := ⟨false, true, cmd⟩

/-- Nothing presented, `RST` not asserted. -/
def quietPins : Pins := ⟨false, false, 0⟩

/-- `RST` asserted. -/
def resetPins : Pins := ⟨true, false, 0⟩

/-- The index `T` as a sequencer position needs it: `EXP` takes `T` in 16..79 and `RND` in 0..79 (30_encoding.md R77);
a `T` in range stays, another becomes the first index of the loop (log 10). -/
def positionIndex (ph : Phase) (t : BitVec 7) : BitVec 7 :=
  match ph with
  | .exp => if 16 ≤ t.toNat ∧ t.toNat ≤ 79 then t else 16
  | .rnd => if t.toNat ≤ 79 then t else 0
  | .idle | .p80 | .pz | .plen | .ldw | .ldv | .add | .fin => t

/-- The state whose next step runs the instruction with the given bits: a command word stands on the port with
`PH = IDLE`; a micro-operation is named by `PH`, with `T` in its range and quiet ports (log 10). -/
def withCode (s : State) : Code → State
  | .cmd16 cmd => { s with ph := .idle, inputs := presenting cmd :: s.inputs.tail }
  | .uop c =>
    match phaseOfCode c with
    | some ph => { s with ph := ph, t := positionIndex ph s.t, inputs := quietPins :: s.inputs.tail }
    | none => s

end Sys2Proof.Machine
end

