-- ==== Sys2Proof/Machine/Step.lean ====
section
/-! DEFINITION. One step of the machine, and where an instruction stands for the next step to run it. -/

namespace Sys2Proof.Machine

open Sys2Proof

/-- One step: this step's port sample is taken off the list, and the machine moves as it says (00_scope.md R14). -/
def step (s : State) : Host.Outcome State Fault Refusal := stepWith (currentPins s) (dropPins s)

/-- `s` with the instruction of a table word stored where `step` fetches its next one: on the command port, or in `PH`
(log 10). -/
def State.withFetchWord (s : State) (nbits w : Nat) : State :=
  match codeOfTable nbits w with
  | some c => withCode s c
  | none => s

end Sys2Proof.Machine
end

