-- ==== Sys2Proof/Machine/Algorithm.lean ====
section
/-! DEFINITION. The functions the hardware computes, as the spec states them apart from the machine: `Pad` and `Blocks`
(40_padder.md R90 to R92, R100), `Schedule` (41_scheduler.md R110), `Compress` (42_compressor.md R130), `Serialize` and
`Finalize` (43_finalizer.md R150), `Hash` (44_variants_constants.md R164). -/

namespace Sys2Proof.Machine

open Sys2Proof

/-- `Kpad = (895 - Lb) mod 1024` with `mod` in `[0, 1024)`: the padding length in bits (40_padder.md R91). -/
def kpad (lb : Nat) : Nat := (895 + 1024 - lb % 1024) % 1024

/-- `Z = (Kpad - 7) / 8`: the number of zero bytes between the marker and the length field (40_padder.md R91). -/
def zeroBytes (l : Nat) : Nat := (kpad (8 * l) - 7) / 8

/-- `Pad(m)` (40_padder.md R90). The spec defines it for `8L < 2^LENW`; that a longer message has a padded string too, its
length field cut modulo `2^128`, is the model's. DESIGN CHOICE, log 23, safe. -/
def pad (m : List Byte) : List Byte :=
  m ++ [0x80#8] ++ List.replicate (zeroBytes m.length) 0x00#8 ++ be128 (8 * m.length)

/-- `NB = M / 128` (40_padder.md R92). -/
def numBlocks (m : List Byte) : Nat := (pad m).length / 128

/-- Block `k` of the padded message, for `k < NB` (40_padder.md R100); past the last block, the empty list (log 24). -/
def blockAt (m : List Byte) (k : Nat) : List Byte := ((pad m).drop (128 * k)).take 128

/-- `Blocks(m)` (40_padder.md R100). For a message with `8L >= 2^LENW` its value is the model's (log 23). -/
def blocks (m : List Byte) : List (List Byte) := (List.range (numBlocks m)).map (blockAt m)

/-- Word `j` of a block, `j < 16`: `be64` of its bytes `8j .. 8j + 7` (40_padder.md R100); for a list that is no block, the
model's (log 24). -/
def wordOfBlock (block : List Byte) (j : Nat) : Word := be64 ((block.drop (8 * j)).take 8)

/-- `W[i]` from the words below it, for `i` the number of words given (41_scheduler.md R110). -/
def nextScheduleWord (w : List Word) : Word :=
  let i := w.length
  ssig1 (w.getD (i - 2) 0) + w.getD (i - 7) 0 + ssig0 (w.getD (i - 15) 0) + w.getD (i - 16) 0

/-- `n` more schedule words. -/
def extendSchedule : Nat → List Word → List Word
  | 0, w => w
  | n + 1, w => extendSchedule n (w ++ [nextScheduleWord w])

/-- `Schedule(B)`: eighty words (41_scheduler.md R110). For a list of other than 128 bytes its value is the model's
(DESIGN CHOICE, log 24, safe). -/
def schedule (block : List Byte) : List Word := extendSchedule 64 ((List.range 16).map (wordOfBlock block))

/-- `v(n)`: the working state after `n` rounds (42_compressor.md R130). -/
def roundsFrom (v0 : Vector Word 8) (w : List Word) : Nat → Vector Word 8
  | 0 => v0
  | n + 1 => roundStep (roundsFrom v0 w n) (roundConstant n) (w.getD n 0)

/-- `Compress(H, B)` (42_compressor.md R130). For a list of other than 128 bytes its value is the model's (DESIGN CHOICE,
log 24, safe). -/
def compress (h : Vector Word 8) (block : List Byte) : Vector Word 8 :=
  addBack h (roundsFrom h (schedule block) 80)

/-- `Serialize(H)`: 64 bytes, word 0 first, most significant byte of each word first (43_finalizer.md R150). -/
def serialize (h : Vector Word 8) : List Byte :=
  h.toList.flatMap fun x => (List.range 8).map fun k => byteK k x

/-- `Finalize(alg, H)`: the first `DLEN(alg)` bytes of `Serialize(H)` (43_finalizer.md R150). -/
def finalize (alg : Alg) (h : Vector Word 8) : List Byte := (serialize h).take (dlen alg)

/-- `Hash(alg, m)` (44_variants_constants.md R164). The spec defines it for `8L < 2^LENW`; that a longer message has a hash
too, that of the model's `pad`, is the model's. DESIGN CHOICE, log 23, safe. -/
def hash (alg : Alg) (m : List Byte) : List Byte := finalize alg ((blocks m).foldl compress (iv alg))

end Sys2Proof.Machine
end

