-- ==== Sys2Proof/Machine/Script.lean ====
section
/-! DEFINITION. The host side: scripts, their lines and pseudo-commands (30_encoding.md R79, R80), their text, and a host that
waits for `CMD_READY` between two lines (70_reset_and_hazards.md R240). -/

namespace Sys2Proof.Machine

open Sys2Proof

/-- One line of a script (30_encoding.md R79) or a pseudo-command (R80). Operands are numbers as written; one out of
range is an error of the script. -/
inductive ScriptLine where
  | init512
  | init384
  | data (b : Nat)
  | final
  | rddg (n : Nat)
  | raw (w : Nat)
  | reset
  /-- `MSG "text"` and `MSGHEX hh...`, the bytes already read. -/
  | msg (bytes : List Byte)
  | rep (n b : Nat)
  | digest
  | hash512 (m : List Byte)
  | hash384 (m : List Byte)
  deriving DecidableEq, Repr

/-- What the host does at the ports for one emitted word, or for `RESET`. -/
inductive HostAct where
  | word (w : BitVec 16)
  | reset
  deriving DecidableEq, Repr

/-- The word of `INIT512` or `INIT384` (30_encoding.md R71). -/
def initWord : Alg → BitVec 16
  | .sha512 => 0x0100#16
  | .sha384 => 0x0101#16

/-- The word of `DATA b` (30_encoding.md R71). -/
def dataWord (b : Byte) : BitVec 16 := 0x02#8 ++ b

/-- The word of `FINAL` (30_encoding.md R71). -/
def finalWord : BitVec 16 := 0x0300#16

/-- `DIGEST`: `RDDG 0` to `RDDG (DLEN(ALG) - 1)` (30_encoding.md R80). -/
def digestActs (alg : Alg) : List HostAct :=
  (List.range (dlen alg)).map fun n => .word (0x0400#16 + BitVec.ofNat 16 n)

/-- `INIT*`, `DATA` for each byte of `m`, `FINAL` (45_commands.md R178). -/
def sessionActs (alg : Alg) (m : List Byte) : List HostAct :=
  .word (initWord alg) :: m.map (fun b => .word (dataWord b)) ++ [.word finalWord]

/-- `HASH512 m` and `HASH384 m` (30_encoding.md R80). -/
def hashActs (alg : Alg) (m : List Byte) : List HostAct := sessionActs alg m ++ digestActs alg

/-- `0x0200 + b`, for a byte in range. -/
def dataAct (b : Nat) : Option HostAct :=
  if b ≤ 255 then some (.word (dataWord (BitVec.ofNat 8 b))) else none

/-- What a line emits, when the last `INIT*` before it chose `alg` (30_encoding.md R79, R80); none for an operand out of
range. -/
def expandLine (alg : Alg) : ScriptLine → Option (List HostAct)
  | .init512 => some [.word (initWord .sha512)]
  | .init384 => some [.word (initWord .sha384)]
  | .data b => (dataAct b).map fun a => [a]
  | .final => some [.word finalWord]
  | .rddg n => if n ≤ 63 then some [.word (0x0400#16 + BitVec.ofNat 16 n)] else none
  | .raw w => if w ≤ 0xffff then some [.word (BitVec.ofNat 16 w)] else none
  | .reset => some [.reset]
  | .msg bytes => some (bytes.map fun b => .word (dataWord b))
  | .rep n b => (dataAct b).map fun a => List.replicate n a
  | .digest => some (digestActs alg)
  | .hash512 m => some (hashActs .sha512 m)
  | .hash384 m => some (hashActs .sha384 m)

/-- The algorithm `DIGEST` reads for after a line; `RESET` leaves `ALG = 0` (70_reset_and_hazards.md R231, log 17). -/
def algAfter (alg : Alg) : ScriptLine → Alg
  | .init512 | .hash512 _ | .reset => .sha512
  | .init384 | .hash384 _ => .sha384
  | .raw w => if w = 0x0100 then .sha512 else if w = 0x0101 then .sha384 else alg
  | .data _ | .final | .rddg _ | .msg _ | .rep _ _ | .digest => alg

/-- What a script emits, the lines before it having left the algorithm `alg`. -/
def expandScript : Alg → List ScriptLine → Option (List HostAct)
  | _, [] => some []
  | alg, l :: rest =>
    match expandLine alg l, expandScript (algAfter alg l) rest with
    | some a, some b => some (a ++ b)
    | _, _ => none

/-- With quiet ports, let the core run until `CMD_READY = 1`, at most `n` micro-operations. -/
def settle : Nat → State → Result
  | 0, s => .next s
  | n + 1, s =>
    if cmdReady s then .next s
    else
      match step { s with inputs := [] } with
      | .next t => settle n t
      | .fault f => .fault f
      | .refused r => .refused r

/-- More micro-operations than any command owes: 299 (70_reset_and_hazards.md R246). -/
def settleBound : Nat := 300

/-- What the ports read in the step of a host act. -/
def actPins : HostAct → Pins
  | .word w => presenting w
  | .reset => resetPins

/-- One host act from a core that is ready: one step with the word presented (or `RST` asserted), then wait for
`CMD_READY`. -/
def perform (a : HostAct) (s : State) : Result :=
  match step { s with inputs := [actPins a] } with
  | .next t => settle settleBound t
  | .fault f => .fault f
  | .refused r => .refused r

/-- The host's acts in order (30_encoding.md R79). -/
def performAll : List HostAct → State → Result
  | [], s => .next s
  | a :: rest, s =>
    match perform a s with
    | .next t => performAll rest t
    | .fault f => .fault f
    | .refused r => .refused r

/-- The response bytes the acts return, in order: `RSP_DATA` after each act that leaves `RSP_VALID = 1`
(10_state.md R39). -/
def responses : List HostAct → State → List Byte
  | [], _ => []
  | a :: rest, s =>
    match perform a s with
    | .next t => if t.rspv then t.rspd :: responses rest t else responses rest t
    | .fault _ => []
    | .refused _ => []

/-! ## The text of a script (30_encoding.md R79, R80; log 16) -/

/-- A blank between the words of a line. -/
def isBlank (c : Char) : Bool := c == ' ' || c == '\t'

/-- Without leading blanks. -/
def skipBlanks (cs : List Char) : List Char := cs.dropWhile isBlank

/-- Only blanks or a comment follow. -/
def lineDone (cs : List Char) : Bool :=
  match skipBlanks cs with
  | [] => true
  | c :: _ => c == ';'

/-- The first word of a line and what follows its blanks. -/
def takeWord (cs : List Char) : List Char × List Char :=
  let p := cs.span fun c => !(isBlank c || c == ';')
  (p.1, skipBlanks p.2)

/-- The value of a digit in base 10 or 16. -/
def digitValue (base : Nat) (c : Char) : Option Nat :=
  let n := c.toNat
  let v := if 48 ≤ n ∧ n ≤ 57 then n - 48
    else if 97 ≤ n ∧ n ≤ 102 then n - 87
    else if 65 ≤ n ∧ n ≤ 70 then n - 55
    else 99
  if v < base then some v else none

/-- The number a string of digits writes, after the digits read so far. -/
def readDigits (base : Nat) : Nat → List Char → Option Nat
  | acc, [] => some acc
  | acc, c :: cs =>
    match digitValue base c with
    | some d => readDigits base (acc * base + d) cs
    | none => none

/-- A decimal number, or a hexadecimal one with `0x` (30_encoding.md R79). -/
def readNumber : List Char → Option Nat
  | [] => none
  | '0' :: 'x' :: d :: ds => readDigits 16 0 (d :: ds)
  | cs => readDigits 10 0 cs

/-- Pairs of hex digits, one byte a pair (00_scope.md R16). -/
def readHexBytes : List Char → Option (List Byte)
  | [] => some []
  | [_] => none
  | a :: b :: rest =>
    match digitValue 16 a, digitValue 16 b, readHexBytes rest with
    | some x, some y, some bytes => some (BitVec.ofNat 8 (x * 16 + y) :: bytes)
    | _, _, _ => none

/-- The ASCII bytes up to the closing quote (30_encoding.md R80), and what follows it. -/
def readQuoted : List Char → Option (List Byte × List Char)
  | [] => none
  | c :: cs =>
    if c.toNat = 34 then some ([], cs)
    else if c.toNat < 128 then
      match readQuoted cs with
      | some (bytes, rest) => some (BitVec.ofNat 8 c.toNat :: bytes, rest)
      | none => none
    else none

/-- Hex digits, one byte a pair (00_scope.md R16, 30_encoding.md R80), and what follows them. No digits at all write the
empty byte string: R16's notation of it, which no line of the spec uses for a message. DESIGN CHOICE, log 21, safe. -/
def readHexOperand (cs : List Char) : Option (List Byte × List Char) :=
  let w := takeWord cs
  (readHexBytes w.1).map fun bytes => (bytes, w.2)

/-- The message operand of `HASH512` and `HASH384`: text in quotes, or hex digits (00_scope.md R16), and what follows it.
A line that gives no operand, with a comment or without, has the empty message, as `""` has. DESIGN CHOICE, log 21,
safe. -/
def readMessage (cs : List Char) : Option (List Byte × List Char) :=
  match cs with
  | [] => readHexOperand []
  | c :: rest => if c.toNat = 34 then readQuoted rest else readHexOperand (c :: rest)

/-- A line whose operand is one number. -/
def lineOfNumber (mk : Nat → ScriptLine) (rest : List Char) : Option ScriptLine :=
  let w := takeWord rest
  if lineDone w.2 then (readNumber w.1).map mk else none

/-- A line whose operand is a message. -/
def lineOfMessage (mk : List Byte → ScriptLine) (read : List Char → Option (List Byte × List Char))
    (rest : List Char) : Option ScriptLine :=
  match read rest with
  | some (bytes, after) => if lineDone after then some (mk bytes) else none
  | none => none

/-- A line without operand. -/
def lineAlone (l : ScriptLine) (rest : List Char) : Option ScriptLine :=
  if lineDone rest then some l else none

/-- `REP n b`. -/
def lineOfRep (rest : List Char) : Option ScriptLine :=
  let w := takeWord rest
  match readNumber w.1 with
  | some n => lineOfNumber (.rep n) w.2
  | none => none

/-- `MSG` wants its text in quotes (30_encoding.md R80). -/
def readText : List Char → Option (List Byte × List Char)
  | [] => none
  | c :: cs => if c.toNat = 34 then readQuoted cs else none

/-- One line of text: `some none` for a line that holds nothing, `none` for an error of the script. 30_encoding.md R79
speaks only of lines that hold a command or pseudo-command; that a blank or comment-only line is no error and emits nothing
is the model's. DESIGN CHOICE, log 22, safe. -/
def readLine (line : List Char) : Option (Option ScriptLine) :=
  let cs := skipBlanks line
  if lineDone cs then some none
  else
    let w := takeWord cs
    let key := w.1
    let rest := w.2
    Option.map some <|
      if key = ['I', 'N', 'I', 'T', '5', '1', '2'] then lineAlone .init512 rest
      else if key = ['I', 'N', 'I', 'T', '3', '8', '4'] then lineAlone .init384 rest
      else if key = ['D', 'A', 'T', 'A'] then lineOfNumber .data rest
      else if key = ['F', 'I', 'N', 'A', 'L'] then lineAlone .final rest
      else if key = ['R', 'D', 'D', 'G'] then lineOfNumber .rddg rest
      else if key = ['R', 'A', 'W'] then lineOfNumber .raw rest
      else if key = ['R', 'E', 'S', 'E', 'T'] then lineAlone .reset rest
      else if key = ['M', 'S', 'G'] then lineOfMessage .msg readText rest
      else if key = ['M', 'S', 'G', 'H', 'E', 'X'] then lineOfMessage .msg readHexOperand rest
      else if key = ['R', 'E', 'P'] then lineOfRep rest
      else if key = ['D', 'I', 'G', 'E', 'S', 'T'] then lineAlone .digest rest
      else if key = ['H', 'A', 'S', 'H', '5', '1', '2'] then lineOfMessage .hash512 readMessage rest
      else if key = ['H', 'A', 'S', 'H', '3', '8', '4'] then lineOfMessage .hash384 readMessage rest
      else none

/-- A script's lines. -/
def readScript : List (List Char) → Option (List ScriptLine)
  | [] => some []
  | l :: rest =>
    match readLine l, readScript rest with
    | some (some x), some xs => some (x :: xs)
    | some none, some xs => some xs
    | _, _ => none

end Sys2Proof.Machine
end

