-- ==== Sys2Proof/Safety.lean ====
section
/-! DEFINITION. What a safe state and a safe run are: the invariants the spec's rules state of every reachable state
(10_state.md R30 to R39, R45; 20_memory.md R55; 60_exceptions.md R202, R208), gathered into one. -/

namespace Sys2Proof.Safety

open Sys2Proof Sys2Proof.Machine

/-- A byte space in canonical form with every listed index inside the space. -/
def SpaceOk (m : Memory) (size : Nat) : Prop :=
  m.wf = true ∧ ∀ c ∈ m, c.1 < size

/-- Every byte below `n` has been written since reset (10_state.md R45). -/
def WrittenBelow (m : Memory) (n : Nat) : Prop :=
  ∀ a, a < n → (m.read a).isSome

/-- `CNT = (LEN / 8) mod 128` (10_state.md R31). -/
def CountAgrees (s : State) : Prop :=
  s.cnt.toNat = s.len.toNat / 8 % 128

/-- A block is being processed: the buffer is full; only a final block has its length written; a block that `DATA` filled
ends at a multiple of 128 message bytes. -/
def InBlock (s : State) : Prop :=
  s.cnt = 128 ∧ (s.lw = true → s.finf = true) ∧ (s.finf = false → s.len.toNat / 8 % 128 = 0)

/-- What holds at each position of the sequencer: the ranges of `CNT` and `T` (10_state.md R31, R32) and the two flags
that steer it (R37, R38). -/
def PositionOk (s : State) : Prop :=
  match s.ph with
  | .idle => s.cnt.toNat ≤ 127 ∧ s.t = 0 ∧ s.finf = false ∧ s.lw = false ∧ (s.st = .absorb → CountAgrees s)
  | .p80 => s.cnt.toNat ≤ 127 ∧ s.t = 0 ∧ s.finf = true ∧ s.lw = false ∧ CountAgrees s
  | .pz => s.cnt.toNat ≤ 128 ∧ s.t = 0 ∧ s.finf = true ∧ s.lw = false
  | .plen => s.cnt = 112 ∧ s.t = 0 ∧ s.finf = true ∧ s.lw = false
  | .ldw => InBlock s ∧ s.t = 0
  | .exp => InBlock s ∧ 16 ≤ s.t.toNat ∧ s.t.toNat ≤ 79
  | .ldv => InBlock s ∧ s.t = 80
  | .rnd => InBlock s ∧ s.t.toNat ≤ 79
  | .add => InBlock s ∧ s.t = 80
  | .fin => s.cnt = 0 ∧ s.t = 0 ∧ s.finf = true ∧ s.lw = true

/-- The invariant of every state that a run from reset reaches. -/
structure Inv (s : State) : Prop where
  /-- The block buffer is in canonical form. -/
  bufOk : SpaceOk s.buf 128
  /-- The digest register is in canonical form. -/
  dgOk : SpaceOk s.dg 64
  /-- `LEN` is a multiple of 8 (10_state.md R30). -/
  lenBytes : s.len.toNat % 8 = 0
  /-- The sequencer's position is one the rules reach. -/
  position : PositionOk s
  /-- The bytes below `CNT` are written (10_state.md R45). -/
  bufWritten : WrittenBelow s.buf s.cnt.toNat
  /-- Micro-operations are owed only in an open session (10_state.md R34, 60_exceptions.md R208). -/
  busyAbsorb : s.ph ≠ .idle → s.st = .absorb
  /-- `ERR != 0` exactly when `ST = ERROR` (10_state.md R36). -/
  errExact : s.err ≠ .none ↔ s.st = .error
  /-- No transition produces `AllocationFailure` (60_exceptions.md R202). -/
  noAllocation : s.err ≠ .allocationFailure
  /-- A response is shown only after a successful `RDDG` (10_state.md R39). -/
  responseDone : s.rspv = true → s.st = .done
  /-- In `DONE` the digest register holds the digest of the hash state (10_state.md R26, R34). -/
  digestHeld : s.st = .done → ∀ n, n < dlen s.alg → s.dg.read n = (finalize s.alg s.h)[n]?
  /-- In `DONE` for SHA-384 the tail of the digest register is zero (20_memory.md R55). -/
  tailZero : s.st = .done → s.alg = .sha384 → ∀ n, 48 ≤ n → n < 64 → s.dg.read n = some 0#8

/-- `RST` is not asserted in this step. -/
def NotReset (s : State) : Prop := (currentPins s).rst = false

/-- `RST` is not asserted in the next `n` steps. -/
def NoResetFor (n : Nat) (s : State) : Prop := ∀ p ∈ s.inputs.take n, p.rst = false

/-- A command word is accepted in this step (45_commands.md R170). -/
def Accepts (s : State) (cmd : BitVec 16) : Prop :=
  NotReset s ∧ s.ph = .idle ∧ (currentPins s).cmdValid = true ∧ (currentPins s).cmd = cmd

/-- `k` steps of the machine, stopping at the first that does not answer a next state. -/
def runSteps (k : Nat) (s : State) : Result := Host.Core.run Sys2Proof.core k s

/-- The block buffer holds the 128 bytes of a block. -/
def HoldsBlock (s : State) (block : List Byte) : Prop :=
  block.length = 128 ∧ ∀ a, a < 128 → s.buf.read a = block[a]?

/-- A state reached from reset by steps, whatever the input ports read (the samples are placed by the environment, log 5):
from a reached state, any change of the coming samples, and any step that answers a next state. -/
inductive Reachable : State → Prop where
  | reset : Reachable State.reset
  | environment (s : State) (inputs : List Pins) : Reachable s → Reachable { s with inputs := inputs }
  | step (s t : State) : Reachable s → Machine.step s = .next t → Reachable t

end Sys2Proof.Safety
end

