-- ==== Sys2Proof/Certificates/Slice0/Obligations.lean ====
section
/-! DEFINITION. The statements for the provers. Where a statement's next state is written as a record update of the state
before, everything the update does not name is unchanged: that is the frame; the byte spaces are described by what each
index reads as after the step. `stepWith p s` is one step with the input ports reading `p`; `step s` is that step with the
first sample of the model's list of port samples (log 5), taken off the list. -/

open Sys2Proof Sys2Proof.Machine Sys2Proof.Safety

/-! ## Encoding -/

/-- Decoding the bits of a well-formed instruction gives the instruction back, with every operand at every value its
field admits (30_encoding.md sections 1 and 2). -/
def Obligations.DecodeInvertsEncode : Prop :=
  ∀ i : Instr, i.wellFormed = true → decode (encode i) = .ok i

/-- Every accepted word or phase code decodes to a well-formed instruction that encodes to exactly those bits
(30_encoding.md sections 1 and 2). -/
def Obligations.EncodeInvertsDecode : Prop :=
  ∀ (c : Code) (i : Instr), decode c = .ok i → i.wellFormed = true ∧ encode i = c

/-- The decoder accepts exactly the words of 30_encoding.md R73, and so does the well-formedness check: written over
`op = cmd / 256` and `arg = cmd mod 256`. -/
def Obligations.DecoderAcceptsExactlyWellFormedWords : Prop :=
  ∀ cmd : BitVec 16,
    let op := cmd.toNat / 256
    let arg := cmd.toNat % 256
    let wf := (op = 1 ∧ arg / 2 = 0) ∨ op = 2 ∨ (op = 3 ∧ arg = 0) ∨ (op = 4 ∧ arg / 64 = 0)
    ((∃ i, decodeCommand cmd = .ok i) ↔ wf) ∧ (wellFormedWord cmd = true ↔ wf)

/-- Each row of the opcode map is selected exactly by `(w & mask) = match`, with its operand in the low bits; every other
operation code is unassigned; 323 words are well formed (30_encoding.md R71). -/
def Obligations.OpcodeRowsSelectByMatchAndMask : Prop :=
  (∀ w : BitVec 16,
    (w &&& 0xffff#16 = 0x0100#16 ↔ decodeCommand w = .ok .init512) ∧
    (w &&& 0xffff#16 = 0x0101#16 ↔ decodeCommand w = .ok .init384) ∧
    (w &&& 0xff00#16 = 0x0200#16 ↔ decodeCommand w = .ok (.data (w.setWidth 8))) ∧
    (w &&& 0xffff#16 = 0x0300#16 ↔ decodeCommand w = .ok .final) ∧
    (w &&& 0xffc0#16 = 0x0400#16 ↔ decodeCommand w = .ok (.rddg (w.setWidth 8))) ∧
    (w.toNat / 256 = 0 ∨ 5 ≤ w.toNat / 256 ↔ decodeCommand w = .error .unassignedOp)) ∧
  ((List.range 256).map fun op =>
    (List.range 256).countP fun arg => wellFormedWord (BitVec.ofNat 16 (256 * op + arg))).sum = 323

/-- A few words and phase codes, written out from the encoding tables, decode to what they stand for, and the reserved
ones to nothing (30_encoding.md sections 1 and 2). That a table word of 8 bits is a phase code, whose upper four bits do not
exist and must be 0, is the model's choice (log 18); the spec's phase codes are 4 bits wide. -/
def Obligations.TableWordsDecode : Prop :=
  decodeTableWord 16 0x0100 = some .init512 ∧ decodeTableWord 16 0x0101 = some .init384 ∧
  decodeTableWord 16 0x0261 = some (.data 0x61) ∧ decodeTableWord 16 0x0300 = some .final ∧
  decodeTableWord 16 0x042f = some (.rddg 47) ∧ decodeTableWord 16 0x0440 = none ∧
  decodeTableWord 8 0x1 = some .p80 ∧ decodeTableWord 8 0x5 = some .exp ∧
  decodeTableWord 8 0x7 = some .rnd ∧ decodeTableWord 8 0x9 = some .fin ∧
  decodeTableWord 8 0x0 = none ∧ decodeTableWord 8 0xa = none

/-! ## The step -/

/-- A step runs the decoded instruction: the micro-operation `PH` names (00_scope.md section 5.5, 30_encoding.md section 2),
or the command word it accepts (45_commands.md section 1). Around `exec` the
step only takes this step's port sample off the list (log 5). -/
def Obligations.StepRunsTheDecodedInstruction : Prop :=
  ∀ (s : State) (i : Instr), NotReset s →
    (decodeUop s.ph.code = .ok i → step s = exec i (dropPins s)) ∧
    (s.ph = .idle → (currentPins s).cmdValid = true → decodeCommand (currentPins s).cmd = .ok i →
      step s = exec i (dropPins s))

/-- While micro-operations are owed, the ports but for `RST` make no difference: a presented word is not accepted, not
queued and not faulted (70_reset_and_hazards.md section 2). -/
def Obligations.BusyCoreIgnoresTheCommandPort : Prop :=
  ∀ (s : State) (p q : Pins) (rest : List Pins), s.ph ≠ .idle → p.rst = false → q.rst = false →
    step { s with inputs := p :: rest } = step { s with inputs := q :: rest }

/-- A ready core to which nothing is presented keeps all its state (60_exceptions.md section 4). The spec says that such a
core has no enabled step; that the model's step answers a next state there, the unchanged core with this step's port sample
dropped, is the model's choice (log 6, DEDUCED; log 5). -/
def Obligations.QuietReadyCoreRetainsState : Prop :=
  ∀ s : State, NotReset s → s.ph = .idle → (currentPins s).cmdValid = false →
    step s = .next { s with inputs := s.inputs.tail }

/-- `RST` in any state, whatever else the ports read: the next state is the reset state, its control registers and derived
words as 70_reset_and_hazards.md section 1 lists them, `BUF` and `DG` holding no value; nothing of the command presented and
nothing of the micro-operation named by `PH` happens. (What `H`, `V`, `W` and `RSPD` hold is unspecified and not
stated: logs 1, 3.) -/
def Obligations.ResetOverridesEverything : Prop :=
  ∀ s : State, (currentPins s).rst = true →
    ∃ t, step s = .next t ∧
      t.st = .idle ∧ t.err = .none ∧ t.ph = .idle ∧ t.alg = .sha512 ∧ t.len = 0 ∧ t.cnt = 0 ∧ t.t = 0 ∧
      t.finf = false ∧ t.lw = false ∧ t.rspv = false ∧
      (∀ a, t.buf.read a = none) ∧ (∀ a, t.dg.read a = none) ∧
      statusWord t = 0x0000#16 ∧ cmdReady t = true ∧ t.inputs = s.inputs.tail

/-- The state after reset: every control register 0, no byte of `BUF` or `DG` holding a value, `STATUS = 0x0000` and the
core ready (70_reset_and_hazards.md section 1). The quiet ports are the model's choice (log 5), and so is that the idle core's step answers the same state (log 6). -/
def Obligations.ResetStateIsTheTable : Prop :=
  State.reset.st.code = 0#2 ∧ State.reset.err.code = 0#3 ∧ State.reset.ph.code = 0#4 ∧ State.reset.alg.code = 0#1 ∧
  State.reset.len = 0 ∧ State.reset.cnt = 0 ∧ State.reset.t = 0 ∧ State.reset.finf = false ∧ State.reset.lw = false ∧
  State.reset.rspv = false ∧ (∀ a, State.reset.buf.read a = none) ∧ (∀ a, State.reset.dg.read a = none) ∧
  outputPorts State.reset = ⟨true, false, State.reset.rspd, 0x0000#16⟩ ∧ step State.reset = .next State.reset

/-! ## The host commands -/

/-- `INIT512` and `INIT384` are performed in every state: a fresh session with the algorithm's initial hash value, the
fault code cleared, and `BUF`, `W`, `V`, `DG`, `RSPD` and `PH` untouched (45_commands.md R172, R173). -/
def Obligations.InitOpensFreshSession : Prop :=
  (encode .init512 = .cmd16 0x0100#16 ∧ encode .init384 = .cmd16 0x0101#16) ∧
  ∀ s : State,
    (∃ h : Vector Word 8, (∀ j : Fin 8, h[j] = ivSha512[j]) ∧
      exec .init512 s = .next { s with
        rspv := false, h := h, alg := .sha512, len := 0, cnt := 0, t := 0, finf := false, lw := false
        err := .none, st := .absorb }) ∧
    (∃ h : Vector Word 8, (∀ j : Fin 8, h[j] = ivSha384[j]) ∧
      exec .init384 s = .next { s with
        rspv := false, h := h, alg := .sha384, len := 0, cnt := 0, t := 0, finf := false, lw := false
        err := .none, st := .absorb })

/-- `DATA b`, in every session state: ignored in `ERROR`, `CMD_SEQUENCE` in `IDLE` and `DONE`, `InputTooLarge` when one more
byte does not fit the counter, else the byte stands at `BUF[CNT]`, `CNT` and `LEN` advance, and the byte that fills the
buffer starts the block (45_commands.md section 2). `CNT < 128` holds in every reachable state. -/
def Obligations.DataAbsorbsByteOrFaults : Prop :=
  ∀ (b : Byte) (s : State),
    encode (.data b) = .cmd16 (0x0200#16 + b.setWidth 16) ∧
    (s.st = .error → exec (.data b) s = .next { s with rspv := false }) ∧
    (s.st = .idle ∨ s.st = .done →
      exec (.data b) s = .next { s with rspv := false, st := .error, err := .cmdSequence }) ∧
    (s.st = .absorb → s.len.toNat = 2 ^ 64 - 8 →
      exec (.data b) s = .next { s with rspv := false, st := .error, err := .inputTooLarge }) ∧
    (s.st = .absorb → s.len.toNat ≠ 2 ^ 64 - 8 → s.cnt.toNat < 128 →
      ∃ m : Memory,
        exec (.data b) s = .next { s with
          rspv := false, buf := m, cnt := s.cnt + 1, len := s.len + 8
          ph := if s.cnt.toNat + 1 = 128 then .ldw else s.ph } ∧
        ∀ a, m.read a = if a = s.cnt.toNat then some b else s.buf.read a)

/-- `FINAL`, in every session state: ignored in `ERROR`, `CMD_SEQUENCE` in `IDLE` and `DONE`, else the padding is owed
(45_commands.md section 2). -/
def Obligations.FinalStartsPaddingOrFaults : Prop :=
  ∀ s : State,
    encode .final = .cmd16 0x0300#16 ∧
    (s.st = .error → exec .final s = .next { s with rspv := false }) ∧
    (s.st = .idle ∨ s.st = .done →
      exec .final s = .next { s with rspv := false, st := .error, err := .cmdSequence }) ∧
    (s.st = .absorb →
      exec .final s = .next { s with rspv := false, finf := true, lw := false, ph := .p80 })

/-- `RDDG n` with `n <= 63`, in every session state: ignored in `ERROR`, `CMD_SEQUENCE` in `IDLE` and `ABSORB`,
`DIGEST_INDEX` at or beyond the digest length, else the response register holds digest byte `n` and nothing else changes
(45_commands.md section 2). -/
def Obligations.RddgReturnsDigestByteOrFaults : Prop :=
  ∀ (n : Byte) (s : State), n.toNat ≤ 63 →
    encode (.rddg n) = .cmd16 (0x0400#16 + n.setWidth 16) ∧
    (s.st = .error → exec (.rddg n) s = .next { s with rspv := false }) ∧
    (s.st = .idle ∨ s.st = .absorb →
      exec (.rddg n) s = .next { s with rspv := false, st := .error, err := .cmdSequence }) ∧
    (s.st = .done → s.alg = .sha384 → 48 ≤ n.toNat →
      exec (.rddg n) s = .next { s with rspv := false, st := .error, err := .digestIndex }) ∧
    (s.st = .done → (s.alg = .sha512 ∨ n.toNat < 48) → ∀ b, s.dg.read n.toNat = some b →
      exec (.rddg n) s = .next { s with rspd := b, rspv := true })

/-- An accepted ill-formed word, each class of them named, raises `CMD_ILLEGAL`, or is ignored in `ERROR`; an index
`0x30..0x3f` on `RDDG` is well formed (30_encoding.md R74). -/
def Obligations.IllFormedWordRaisesCmdIllegal : Prop :=
  (∀ (s : State) (cmd : BitVec 16), s.ph = .idle →
    (cmd.toNat / 256 = 0 ∨ 5 ≤ cmd.toNat / 256 ∨ (cmd.toNat / 256 = 1 ∧ 2 ≤ cmd.toNat % 256) ∨
      (cmd.toNat / 256 = 3 ∧ cmd.toNat % 256 ≠ 0) ∨ (cmd.toNat / 256 = 4 ∧ 0x40 ≤ cmd.toNat % 256)) →
    (s.st = .error → stepWith (presenting cmd) s = .next { s with rspv := false }) ∧
    (s.st ≠ .error →
      stepWith (presenting cmd) s = .next { s with rspv := false, st := .error, err := .cmdIllegal })) ∧
  (∀ n : Byte, 0x30 ≤ n.toNat → n.toNat ≤ 0x3f → decodeCommand (0x04#8 ++ n) = .ok (.rddg n))

/-! ## Taking a fault and recovering -/

/-- Every step that enters `ERROR` is the acceptance of a command and makes exactly the three writes: `RSPV`, `ST`, `ERR`;
everything else, `PH` among it, keeps its value (60_exceptions.md R204). -/
def Obligations.FaultEntryWritesThreeRegisters : Prop :=
  ∀ (p : Pins) (s t : State), stepWith p s = .next t → s.st ≠ .error → t.st = .error →
    (p.rst = false ∧ p.cmdValid = true ∧ s.ph = .idle) ∧
    (t.err = .inputTooLarge ∨ t.err = .cmdIllegal ∨ t.err = .cmdSequence ∨ t.err = .digestIndex) ∧
    t = { s with rspv := false, st := .error, err := t.err }

/-- In `ERROR` every accepted word but `0x0100` and `0x0101` changes `RSPV` only, and the core stays ready
(60_exceptions.md R205). -/
def Obligations.ErrorStateIgnoresAllButInit : Prop :=
  ∀ (s : State) (cmd : BitVec 16), s.ph = .idle → s.st = .error → cmd ≠ 0x0100#16 → cmd ≠ 0x0101#16 →
    stepWith (presenting cmd) s = .next { s with rspv := false } ∧ cmdReady { s with rspv := false } = true

/-- The two ways out of `ERROR` are an accepted `INIT*`, which clears `ERR` and opens a session with an initial hash value
and no bytes, and reset (60_exceptions.md R206). In `ERROR` no micro-operation is owed, by the invariant. -/
def Obligations.ErrorIsLeftOnlyByInitOrReset : Prop :=
  ∀ (p : Pins) (s t : State), Inv s → s.st = .error → stepWith p s = .next t → t.st ≠ .error →
    p.rst = true ∨
    (∃ alg : Alg, s.ph = .idle ∧ p.cmdValid = true ∧ p.cmd = initWord alg ∧ t.err = .none ∧ t.st = .absorb ∧
      t.alg = alg ∧ t.h = iv alg ∧ t.cnt = 0 ∧ t.len = 0)

/-- No step produces the code `ALLOCATION_FAILURE` (60_exceptions.md R202). -/
def Obligations.AllocationFailureIsNeverRaised : Prop :=
  ∀ s t : State, step s = .next t → t.err = .allocationFailure → s.err = .allocationFailure

/-- A micro-operation raises no fault: it leaves `ERR`, the response register, `ALG` and `LEN` alone, and changes `ST` only
in `FIN`, to `DONE` (60_exceptions.md sections 1 and 2; 10_state.md section 4 for `LEN`, section 5 for `ST`, `ALG` and the
response register). -/
def Obligations.MicroOperationsRaiseNothing : Prop :=
  ∀ s t : State, s.ph ≠ .idle → NotReset s → step s = .next t →
    t.err = s.err ∧ t.rspv = s.rspv ∧ t.rspd = s.rspd ∧ t.alg = s.alg ∧ t.len = s.len ∧
    t.st = (if s.ph = .fin then .done else s.st)

/-! ## The micro-operations -/

/-- `P80` puts `0x80` at `BUF[CNT]`, advances `CNT` and goes to `PZ`; nothing else changes (40_padder.md section 2). -/
def Obligations.PadMarkerIsAppended : Prop :=
  encode .p80 = .uop 1#4 ∧
  ∀ s : State, s.cnt.toNat < 128 →
    ∃ m : Memory, exec .p80 s = .next { s with buf := m, cnt := s.cnt + 1, ph := .pz } ∧
      ∀ a, m.read a = if a = s.cnt.toNat then some 0x80#8 else s.buf.read a

/-- `PZ` zeroes up to index 112 and goes to `PLEN` when `CNT <= 112`; up to index 128, and on to `LDW`, when
`113 <= CNT <= 128`; nothing else changes (40_padder.md section 2). -/
def Obligations.ZeroFillStopsAtLengthFieldOrBlockEnd : Prop :=
  encode .pz = .uop 2#4 ∧
  ∀ s : State,
    (s.cnt.toNat ≤ 112 →
      ∃ m : Memory, exec .pz s = .next { s with buf := m, cnt := 112, ph := .plen } ∧
        ∀ a, m.read a = if s.cnt.toNat ≤ a ∧ a < 112 then some 0x00#8 else s.buf.read a) ∧
    (113 ≤ s.cnt.toNat → s.cnt.toNat ≤ 128 →
      ∃ m : Memory, exec .pz s = .next { s with buf := m, cnt := 128, ph := .ldw } ∧
        ∀ a, m.read a = if s.cnt.toNat ≤ a ∧ a < 128 then some 0x00#8 else s.buf.read a)

/-- `PLEN` writes the bit length big-endian into `BUF[112..127]`, whose first eight bytes are therefore zero, and sets
`LW`; nothing else changes (40_padder.md section 2). -/
def Obligations.LengthFieldIsBigEndianLen : Prop :=
  encode .plen = .uop 3#4 ∧
  ∀ s : State,
    ∃ m : Memory, exec .plen s = .next { s with buf := m, cnt := 128, lw := true, ph := .ldw } ∧
      ∀ a, m.read a =
        if 112 ≤ a ∧ a < 120 then some 0x00#8
        else if 120 ≤ a ∧ a < 128 then some (BitVec.ofNat 8 (s.len.toNat / 2 ^ (8 * (127 - a)) % 256))
        else s.buf.read a

/-- `LDW` of a written block loads word `j` as the big-endian value of bytes `8j .. 8j+7`, for the first sixteen words;
the other words, and everything else but `T` and `PH`, stay (41_scheduler.md section 2). -/
def Obligations.LoadWordsReadsBlockBigEndian : Prop :=
  encode .ldw = .uop 4#4 ∧
  ∀ (s : State) (f : Nat → Byte), (∀ a, a < 128 → s.buf.read a = some (f a)) →
    ∃ w : Vector Word 80, exec .ldw s = .next { s with w := w, t := 16, ph := .exp } ∧
      (∀ j : Fin 80, j.val < 16 →
        w[j].toNat = ((List.range 8).map fun k => (f (8 * j.val + k)).toNat * 2 ^ (56 - 8 * k)).sum) ∧
      (∀ j : Fin 80, 16 ≤ j.val → w[j] = s.w[j])

/-- `EXP` with `16 <= T <= 79` writes `W[T]` from the four earlier words by the recurrence, advances `T`, and goes to `LDV`
after `T = 79`; nothing else changes (41_scheduler.md section 2). -/
def Obligations.ExpandWritesOneScheduleWord : Prop :=
  encode .exp = .uop 5#4 ∧
  ∀ (s : State) (ht : 16 ≤ s.t.toNat ∧ s.t.toNat < 80),
    ∃ w : Vector Word 80,
      exec .exp s = .next { s with
        w := w, t := s.t + 1, ph := if s.t.toNat = 79 then .ldv else s.ph } ∧
      (let x₂ := s.w[s.t.toNat - 2]
       let x₁₅ := s.w[s.t.toNat - 15]
       w[s.t.toNat].toNat =
        ((x₂.rotateRight 19 ^^^ x₂.rotateRight 61 ^^^ (x₂ >>> 6)).toNat + (s.w[s.t.toNat - 7]).toNat +
          (x₁₅.rotateRight 1 ^^^ x₁₅.rotateRight 8 ^^^ (x₁₅ >>> 7)).toNat + (s.w[s.t.toNat - 16]).toNat) % 2 ^ 64) ∧
      (∀ j : Fin 80, j.val ≠ s.t.toNat → w[j] = s.w[j])

/-- `LDV` copies `H` into `a..h`, sets `T` to 0 and goes to `RND`; nothing else changes (42_compressor.md section 3). -/
def Obligations.LoadWorkingStateCopiesHash : Prop :=
  encode .ldv = .uop 6#4 ∧
  ∀ s : State, ∃ v : Vector Word 8, (∀ j : Fin 8, v[j] = s.h[j]) ∧
    exec .ldv s = .next { s with v := v, t := 0, ph := .rnd }

/-- `RND` with `T <= 79` computes all eight new words from the eight old ones, by the source's `T1` and `T2` modulo
`2^64`, advances `T`, and goes to `ADD` after `T = 79`; nothing else changes (42_compressor.md section 3). -/
def Obligations.RoundUpdatesWorkingState : Prop :=
  encode .rnd = .uop 7#4 ∧
  ∀ (s : State) (ht : s.t.toNat < 80),
    ∃ v : Vector Word 8,
      exec .rnd s = .next { s with
        v := v, t := s.t + 1, ph := if s.t.toNat = 79 then .add else s.ph } ∧
      (let a := s.v[0]
       let b := s.v[1]
       let c := s.v[2]
       let e := s.v[4]
       let f := s.v[5]
       let g := s.v[6]
       let t₁ := (s.v[7].toNat + (e.rotateRight 14 ^^^ e.rotateRight 18 ^^^ e.rotateRight 41).toNat +
         ((e &&& f) ||| (~~~e &&& g)).toNat + (roundConstant s.t.toNat).toNat + (s.w[s.t.toNat]).toNat) % 2 ^ 64
       let t₂ := ((a.rotateRight 28 ^^^ a.rotateRight 34 ^^^ a.rotateRight 39).toNat +
         ((a &&& (b ||| c)) ||| (b &&& c)).toNat) % 2 ^ 64
       v[0].toNat = (t₁ + t₂) % 2 ^ 64 ∧ v[1] = a ∧ v[2] = b ∧ v[3] = c ∧
       v[4].toNat = (s.v[3].toNat + t₁) % 2 ^ 64 ∧ v[5] = e ∧ v[6] = f ∧ v[7] = g)

/-- `ADD` adds the working state into the hash state word by word modulo `2^64`, empties the buffer, and goes to `IDLE`,
`PZ` or `FIN` by `FINF` and `LW`; nothing else changes. `FINF = 0` goes to `IDLE` whatever `LW` is
(42_compressor.md section 3). -/
def Obligations.AddBackLeavesTheBlock : Prop :=
  encode .add = .uop 8#4 ∧
  ∀ s : State, ∃ h : Vector Word 8,
    (∀ j : Fin 8, h[j].toNat = (s.h[j].toNat + s.v[j].toNat) % 2 ^ 64) ∧
    exec .add s = .next { s with
      h := h, cnt := 0, t := 0
      ph := match s.finf, s.lw with
        | false, _ => .idle
        | true, false => .pz
        | true, true => .fin }

/-- `FIN` loads the digest register with the hash state, big-endian, zero from index 48 on for SHA-384, and closes the
session; nothing else changes (43_finalizer.md section 2). -/
def Obligations.FinalizerLoadsDigestRegister : Prop :=
  encode .fin = .uop 9#4 ∧
  ∀ s : State, ∃ m : Memory,
    exec .fin s = .next { s with dg := m, st := .done, finf := false, lw := false, ph := .idle } ∧
    (∀ (j : Fin 8) (k : Nat), k < 8 → (s.alg = .sha512 ∨ j.val < 6) →
      m.read (8 * j.val + k) = some (BitVec.ofNat 8 (s.h[j].toNat / 2 ^ (56 - 8 * k) % 256))) ∧
    (s.alg = .sha384 → ∀ n, 48 ≤ n → n < 64 → m.read n = some 0x00#8) ∧
    (∀ n, 64 ≤ n → m.read n = s.dg.read n)

/-- The sequencer's transitions: from every micro-operation's phase, the phase after a step and what it depends on; `LDW` is
entered only from a full buffer's `DATA`, from `PZ` and from `PLEN` (40_padder.md section 2, 42_compressor.md section 4).
That `PZ` with `CNT > 128`, which no run reaches, goes on to `LDW` is the model's choice (log 15, DEDUCED). -/
def Obligations.SequencerFollowsItsTable : Prop :=
  (∀ s t : State, NotReset s → step s = .next t →
    (s.ph = .p80 → t.ph = .pz) ∧
    (s.ph = .pz → t.ph = if s.cnt.toNat ≤ 112 then .plen else .ldw) ∧
    (s.ph = .plen → t.ph = .ldw) ∧
    (s.ph = .ldw → t.ph = .exp ∧ t.t = 16) ∧
    (s.ph = .exp → t.ph = (if s.t.toNat < 79 then .exp else .ldv) ∧ t.t.toNat = s.t.toNat + 1) ∧
    (s.ph = .ldv → t.ph = .rnd ∧ t.t = 0) ∧
    (s.ph = .rnd → t.ph = (if s.t.toNat < 79 then .rnd else .add) ∧ t.t.toNat = s.t.toNat + 1) ∧
    (s.ph = .add → t.ph = if s.finf = false then .idle else if s.lw = false then .pz else .fin) ∧
    (s.ph = .fin → t.ph = .idle)) ∧
  (∀ s t : State, step s = .next t → t.ph = .ldw →
    s.ph = .pz ∨ s.ph = .plen ∨ ∃ b : Byte, Accepts s (dataWord b) ∧ s.cnt = 127)

/-- Where the model itself stops: exactly where an index would leave its space or a byte that nothing has written since
reset would be read; and it refuses nothing (10_state.md section 7, 00_scope.md section 5.4). These stops are the model's
choice (logs 2, 9), and so is that `PZ` with `CNT > 128` does not stop (log 15, DEDUCED). -/
def Obligations.ModelStopsExactlyOutsideTheRules : Prop :=
  ∀ (i : Instr) (s : State),
    (∀ r, exec i s ≠ .refused r) ∧
    ((∃ f, exec i s = .fault f) ↔
      match i with
      | .data _ => s.st = .absorb ∧ s.len.toNat ≠ 2 ^ 64 - 8 ∧ 128 ≤ s.cnt.toNat
      | .rddg n => s.st = .done ∧ n.toNat < dlen s.alg ∧ s.dg.read n.toNat = none
      | .p80 => 128 ≤ s.cnt.toNat
      | .ldw => ∃ a, a < 128 ∧ s.buf.read a = none
      | .exp => s.t.toNat < 16 ∨ 80 ≤ s.t.toNat
      | .rnd => 80 ≤ s.t.toNat
      | .init512 | .init384 | .final | .pz | .plen | .ldv | .add | .fin => False)

/-! ## Invariants of the whole machine -/

/-- The invariant holds right after reset. -/
def Obligations.InvariantHoldsAtReset : Prop := Inv State.reset

/-- Every step from a state of the invariant that answers a next state answers one of the invariant: `CNT`, `T`, `FINF`,
`LW` in their ranges at every phase, `CNT = (LEN / 8) mod 128` while absorbing, `ERR != 0` exactly in `ERROR`, the byte
spaces canonical and written below `CNT`, the digest register holding the digest in `DONE` (10_state.md sections 3 to 7). -/
def Obligations.StepKeepsInvariant : Prop :=
  ∀ s t : State, Inv s → step s = .next t → Inv t

/-- No read before write, and no index outside its space: from a state of the invariant, a step always answers a next
state (10_state.md section 7 for the reads, 00_scope.md section 5.4 for the indices). That a quiet idle core's step answers
a next state, where the spec has no enabled step, is the model's choice (log 6). -/
def Obligations.InvariantStatesNeverStop : Prop :=
  ∀ s : State, Inv s → ∃ t, step s = .next t

/-- From reset, whatever the input ports read in every step, the invariant holds in every state that is reached and the next
step answers a next state: the model's own faults are unreachable (10_state.md section 7; the free choice of the port
samples is the environment's, log 5; the step of a quiet idle core is the model's choice, log 6). -/
def Obligations.ReachableStatesNeverStop : Prop :=
  ∀ s : State, Reachable s → Inv s ∧ ∃ t, step s = .next t

/-! ## The block, the padding and the whole session -/

/-- After `LDW` and 64 `EXP`, the eighty schedule words are `Schedule(B)` of the block in the buffer
(41_scheduler.md section 2). -/
def Obligations.ScheduleAfterExpansion : Prop :=
  ∀ (s : State) (block : List Byte), s.ph = .ldw → HoldsBlock s block → NoResetFor 65 s →
    ∃ t, runSteps 65 s = .next t ∧ t.w.toList = schedule block ∧ t.ph = .ldv ∧ t.t = 80

/-- The 147 micro-operations of a block end with `H = Compress(H0, B)` and change `W`, `V`, `H`, `T`, `CNT`, `PH` and
nothing else of the core (42_compressor.md section 4). -/
def Obligations.BlockCompressesHash : Prop :=
  ∀ (s : State) (block : List Byte), s.ph = .ldw → HoldsBlock s block → NoResetFor 147 s →
    ∃ t : State, runSteps 147 s = .next t ∧
      t.h = compress s.h block ∧ t.cnt = 0 ∧ t.t = 0 ∧
      t.ph = (if s.finf = false then .idle else if s.lw = false then .pz else .fin) ∧
      t.buf = s.buf ∧ t.dg = s.dg ∧ t.len = s.len ∧ t.alg = s.alg ∧ t.st = s.st ∧ t.err = s.err ∧
      t.finf = s.finf ∧ t.lw = s.lw ∧ t.rspv = s.rspv ∧ t.rspd = s.rspd

/-- A `FINAL` accepted in an open session owes 151 micro-operations when `CNT <= 111` and 299 otherwise; then, and not
before, the core is ready again, with `ST = DONE` (40_padder.md section 2, 70_reset_and_hazards.md section 3). -/
def Obligations.FinalOwes151Or299MicroOperations : Prop :=
  ∀ s : State, Inv s → s.st = .absorb → Accepts s finalWord → NoResetFor 300 s →
    let k := if s.cnt.toNat ≤ 111 then 151 else 299
    (∃ t, runSteps (1 + k) s = .next t ∧ t.ph = .idle ∧ t.st = .done ∧ t.err = .none) ∧
    (∀ j, j < k → ∃ u, runSteps (1 + j) s = .next u ∧ u.ph ≠ .idle ∧ u.st = .absorb)

/-- End to end: from any state with `PH = IDLE`, a session over any message that fits the counter raises no fault and
leaves `Hash(alg, m)` in the digest register, whatever the state before it; reading the digest out returns
`Hash(alg, m)`, byte by byte (44_variants_constants.md section 3). -/
def Obligations.SessionComputesHash : Prop :=
  ∀ (alg : Alg) (m : List Byte) (s : State), s.ph = .idle → 8 * m.length < 2 ^ 64 →
    (∃ t, performAll (sessionActs alg m) s = .next t ∧ t.st = .done ∧ t.err = .none ∧ t.ph = .idle ∧ t.alg = alg ∧
      t.cnt = 0 ∧ t.len.toNat = 8 * m.length ∧ ∀ n, n < dlen alg → t.dg.read n = (hash alg m)[n]?) ∧
    responses (hashActs alg m) s = hash alg m

/-- After an accepted `INIT*` the past is forgotten: from any two states with `PH = IDLE`, the same host acts return the
same response bytes, whatever they are (10_state.md section 7, 44_variants_constants.md section 3). -/
def Obligations.SessionForgetsThePast : Prop :=
  ∀ (alg : Alg) (acts : List HostAct) (s₁ s₂ : State), s₁.ph = .idle → s₂.ph = .idle →
    responses (.word (initWord alg) :: acts) s₁ = responses (.word (initWord alg) :: acts) s₂

/-- `Pad(m)`: whole blocks; the message, `0x80`, zeros, and the bit length as sixteen big-endian bytes
(40_padder.md section 1). The spec defines `Pad` for messages with `8L < 2^LENW`; that the same holds of longer ones is the
model's choice (log 23). -/
def Obligations.PaddingMeetsItsContract : Prop :=
  ∀ m : List Byte,
    (pad m).length % 128 = 0 ∧ m.length + 17 ≤ (pad m).length ∧
    (∀ i, i < m.length → (pad m)[i]? = m[i]?) ∧
    (pad m)[m.length]? = some 0x80#8 ∧
    (∀ i, m.length < i → i < (pad m).length - 16 → (pad m)[i]? = some 0x00#8) ∧
    (∀ k, k < 16 →
      (pad m)[(pad m).length - 16 + k]? = some (BitVec.ofNat 8 (8 * m.length / 2 ^ (120 - 8 * k) % 256)))

/-- `Kpad` is the smallest padding that leaves 128 bits to the block's end, `(895 - Lb) mod 1024`, 7 modulo 8; the length of
`Pad(m)` and the zero bytes follow (40_padder.md section 1); the number of blocks follows from `L mod 128`, and the blocks are
`Pad(m)` cut up. The spec defines `Pad` for messages with `8L < 2^LENW`; that the same holds of longer ones is the model's
choice (log 23). -/
def Obligations.PaddingLengthAndBlockCount : Prop :=
  ∀ m : List Byte,
    let l := m.length
    let r := l % 128
    (8 * l + 1 + kpad (8 * l)) % 1024 = 896 ∧
    (∀ k, (8 * l + 1 + k) % 1024 = 896 → kpad (8 * l) ≤ k) ∧
    (kpad (8 * l) : Int) = (895 - 8 * (l : Int)) % 1024 ∧
    kpad (8 * l) % 8 = 7 ∧ zeroBytes l = (kpad (8 * l) - 7) / 8 ∧
    zeroBytes l = (if r ≤ 111 then 111 - r else 239 - r) ∧
    (pad m).length = l + 1 + zeroBytes l + 16 ∧ 8 * (pad m).length = 8 * l + 1 + kpad (8 * l) + 128 ∧
    (blocks m).length = (if r ≤ 111 then l / 128 + 1 else l / 128 + 2) ∧
    (∀ b ∈ blocks m, b.length = 128) ∧ (blocks m).flatten = pad m

/-- `Schedule(B)`: the first sixteen words are the block's, the others follow the recurrence modulo `2^64`
(41_scheduler.md R110). -/
def Obligations.ScheduleMeetsItsRecurrence : Prop :=
  ∀ block : List Byte, block.length = 128 →
    let w := fun i => (schedule block).getD i 0
    (schedule block).length = 80 ∧
    (∀ i, i < 16 → (w i).toNat =
      ((List.range 8).map fun k => (block.getD (8 * i + k) 0).toNat * 2 ^ (56 - 8 * k)).sum) ∧
    (∀ i, 16 ≤ i → i < 80 →
      (w i).toNat = ((ssig1 (w (i - 2))).toNat + (w (i - 7)).toNat + (ssig0 (w (i - 15))).toNat +
        (w (i - 16)).toNat) % 2 ^ 64)

/-- `Serialize(H)` is 64 bytes, byte `8j + k` being byte `k` of word `j`, most significant first; `Finalize` is all of it
for SHA-512 and its first 48 bytes for SHA-384 (43_finalizer.md R150); so the digest's length is fixed, for all messages (44_variants_constants.md
section 3). -/
def Obligations.FinalizeSerialisesAndCuts : Prop :=
  ∀ (h : Vector Word 8) (m : List Byte),
    (serialize h).length = 64 ∧
    (∀ (j : Fin 8) (k : Nat), k < 8 →
      (serialize h)[8 * j.val + k]? = some (BitVec.ofNat 8 (h[j].toNat / 2 ^ (56 - 8 * k) % 256))) ∧
    finalize .sha512 h = serialize h ∧ finalize .sha384 h = (serialize h).take 48 ∧
    (hash .sha512 m).length = 64 ∧ (hash .sha384 m).length = 48

/-! ## Word operations and the host's view -/

/-- Rotation moves bit `(i + n) mod 64` to bit `i`; the logical shift divides by a power of two (00_scope.md R8, R9). -/
def Obligations.RotationAndShiftByBits : Prop :=
  ∀ (x : Word) (n : Nat), 0 < n → n < 64 →
    rotr x n = (x >>> n ||| x <<< (64 - n)) ∧
    (∀ i, i < 64 → (rotr x n).getLsbD i = x.getLsbD ((i + n) % 64)) ∧
    (shr x n).toNat = x.toNat / 2 ^ n

/-- The six logical functions, bit by bit (41_scheduler.md R111, R112; 42_compressor.md R125 to R128). -/
def Obligations.LogicalFunctionsByBits : Prop :=
  ∀ (x y z : Word) (i : Nat), i < 64 →
    (ssig0 x).getLsbD i =
      ((x.getLsbD ((i + 1) % 64) ^^ x.getLsbD ((i + 8) % 64)) ^^ x.getLsbD (i + 7)) ∧
    (ssig1 x).getLsbD i =
      ((x.getLsbD ((i + 19) % 64) ^^ x.getLsbD ((i + 61) % 64)) ^^ x.getLsbD (i + 6)) ∧
    (bsig0 x).getLsbD i =
      ((x.getLsbD ((i + 28) % 64) ^^ x.getLsbD ((i + 34) % 64)) ^^ x.getLsbD ((i + 39) % 64)) ∧
    (bsig1 x).getLsbD i =
      ((x.getLsbD ((i + 14) % 64) ^^ x.getLsbD ((i + 18) % 64)) ^^ x.getLsbD ((i + 41) % 64)) ∧
    (ch x y z).getLsbD i = (if x.getLsbD i then y.getLsbD i else z.getLsbD i) ∧
    (maj x y z).getLsbD i =
      ((x.getLsbD i && y.getLsbD i) || (x.getLsbD i && z.getLsbD i) || (y.getLsbD i && z.getLsbD i)) ∧
    maj x y z = ((x &&& (y ||| z)) ||| (y &&& z))

/-- Big-endian packing of eight bytes, its inverse, and the sixteen bytes of a 128-bit number (00_scope.md R11). -/
def Obligations.BigEndianPackingAndItsInverse : Prop :=
  (∀ b0 b1 b2 b3 b4 b5 b6 b7 : Byte,
    (be64 [b0, b1, b2, b3, b4, b5, b6, b7]).toNat =
      b0.toNat * 2 ^ 56 + b1.toNat * 2 ^ 48 + b2.toNat * 2 ^ 40 + b3.toNat * 2 ^ 32 + b4.toNat * 2 ^ 24 +
        b5.toNat * 2 ^ 16 + b6.toNat * 2 ^ 8 + b7.toNat) ∧
  (∀ (x : Word) (k : Nat), k < 8 → (byteK k x).toNat = x.toNat / 2 ^ (56 - 8 * k) % 256) ∧
  (∀ x : Word, be64 ((List.range 8).map fun k => byteK k x) = x) ∧
  (∀ v : Nat, v < 2 ^ 128 → (be128 v).length = 16 ∧
    ∀ k, k < 16 → (be128 v)[k]? = some (BitVec.ofNat 8 (v / 2 ^ (120 - 8 * k) % 256)))

/-- `STATUS` is `(CNT << 8) | (ERR << 4) | (BUSY << 3) | (ALG << 2) | ST`, bit 7 always 0; `BUSY` and `CMD_READY` are functions
of `PH` alone (10_state.md R40, R41). -/
def Obligations.StatusWordLayout : Prop :=
  ∀ s : State,
    (statusWord s).toNat =
      s.cnt.toNat * 2 ^ 8 + s.err.code.toNat * 2 ^ 4 + (if s.ph = .idle then 0 else 1) * 2 ^ 3 +
        s.alg.code.toNat * 2 ^ 2 + s.st.code.toNat ∧
    (statusWord s).getLsbD 7 = false ∧
    (busy s = true ↔ s.ph ≠ .idle) ∧ (cmdReady s = true ↔ s.ph = .idle)

/-- The response register: `RSPV` is set exactly by an accepted `RDDG` that raises no fault, which loads the digest byte it
reads; every other accepted command clears it; no other command and no micro-operation writes `RSPD`; the pair holds while
no command is accepted; reset clears `RSPV` (10_state.md R39). -/
def Obligations.ResponseRegisterHoldsTheLastRead : Prop :=
  ∀ (p : Pins) (s t : State), stepWith p s = .next t →
    let accepted := p.rst = false ∧ p.cmdValid = true ∧ s.ph = .idle
    let read := fun n : Byte => p.cmd = 0x0400#16 + n.setWidth 16 ∧ n.toNat < dlen s.alg ∧ s.st = .done
    (accepted → (t.rspv = true ↔ ∃ n, read n)) ∧
    (accepted → ∀ n, read n → s.dg.read n.toNat = some t.rspd) ∧
    (accepted → (¬ ∃ n, read n) → t.rspd = s.rspd) ∧
    (¬ accepted → p.rst = false → t.rspv = s.rspv ∧ t.rspd = s.rspd) ∧
    (p.rst = true → t.rspv = false)

/-- The hash state, the working state and the schedule never reach the ports in a step: two states that differ only there
and both answer a next state drive the same ports after it (20_memory.md section 4, 45_commands.md section 1). -/
def Obligations.WordStorageIsHiddenFromThePorts : Prop :=
  ∀ (s t₁ t₂ : State) (h v : Vector Word 8) (w : Vector Word 80), NotReset s →
    step s = .next t₁ → step { s with h := h, v := v, w := w } = .next t₂ →
    outputPorts t₁ = outputPorts t₂
end

