-- ==== Sys2Proof/Laws/State.lean ====
section
/-! SUPPORT. One lemma per field per named update of State, each true by `rfl`. -/

namespace Sys2Proof.Machine

open Sys2Proof

/-! ## clearResponse s -/

@[simp] theorem clearResponse_h (s : State) : (clearResponse s).h = s.h := rfl
@[simp] theorem clearResponse_v (s : State) : (clearResponse s).v = s.v := rfl
@[simp] theorem clearResponse_w (s : State) : (clearResponse s).w = s.w := rfl
@[simp] theorem clearResponse_buf (s : State) : (clearResponse s).buf = s.buf := rfl
@[simp] theorem clearResponse_dg (s : State) : (clearResponse s).dg = s.dg := rfl
@[simp] theorem clearResponse_len (s : State) : (clearResponse s).len = s.len := rfl
@[simp] theorem clearResponse_cnt (s : State) : (clearResponse s).cnt = s.cnt := rfl
@[simp] theorem clearResponse_t (s : State) : (clearResponse s).t = s.t := rfl
@[simp] theorem clearResponse_ph (s : State) : (clearResponse s).ph = s.ph := rfl
@[simp] theorem clearResponse_st (s : State) : (clearResponse s).st = s.st := rfl
@[simp] theorem clearResponse_alg (s : State) : (clearResponse s).alg = s.alg := rfl
@[simp] theorem clearResponse_err (s : State) : (clearResponse s).err = s.err := rfl
@[simp] theorem clearResponse_finf (s : State) : (clearResponse s).finf = s.finf := rfl
@[simp] theorem clearResponse_lw (s : State) : (clearResponse s).lw = s.lw := rfl
@[simp] theorem clearResponse_rspv (s : State) : (clearResponse s).rspv = false := rfl
@[simp] theorem clearResponse_rspd (s : State) : (clearResponse s).rspd = s.rspd := rfl
@[simp] theorem clearResponse_inputs (s : State) : (clearResponse s).inputs = s.inputs := rfl
@[simp] theorem clearResponse_epoch (s : State) : (clearResponse s).epoch = s.epoch := rfl

/-! ## takeFault c s -/

@[simp] theorem takeFault_h (c : ErrCode) (s : State) : (takeFault c s).h = s.h := rfl
@[simp] theorem takeFault_v (c : ErrCode) (s : State) : (takeFault c s).v = s.v := rfl
@[simp] theorem takeFault_w (c : ErrCode) (s : State) : (takeFault c s).w = s.w := rfl
@[simp] theorem takeFault_buf (c : ErrCode) (s : State) : (takeFault c s).buf = s.buf := rfl
@[simp] theorem takeFault_dg (c : ErrCode) (s : State) : (takeFault c s).dg = s.dg := rfl
@[simp] theorem takeFault_len (c : ErrCode) (s : State) : (takeFault c s).len = s.len := rfl
@[simp] theorem takeFault_cnt (c : ErrCode) (s : State) : (takeFault c s).cnt = s.cnt := rfl
@[simp] theorem takeFault_t (c : ErrCode) (s : State) : (takeFault c s).t = s.t := rfl
@[simp] theorem takeFault_ph (c : ErrCode) (s : State) : (takeFault c s).ph = s.ph := rfl
@[simp] theorem takeFault_st (c : ErrCode) (s : State) : (takeFault c s).st = .error := rfl
@[simp] theorem takeFault_alg (c : ErrCode) (s : State) : (takeFault c s).alg = s.alg := rfl
@[simp] theorem takeFault_err (c : ErrCode) (s : State) : (takeFault c s).err = c := rfl
@[simp] theorem takeFault_finf (c : ErrCode) (s : State) : (takeFault c s).finf = s.finf := rfl
@[simp] theorem takeFault_lw (c : ErrCode) (s : State) : (takeFault c s).lw = s.lw := rfl
@[simp] theorem takeFault_rspv (c : ErrCode) (s : State) : (takeFault c s).rspv = false := rfl
@[simp] theorem takeFault_rspd (c : ErrCode) (s : State) : (takeFault c s).rspd = s.rspd := rfl
@[simp] theorem takeFault_inputs (c : ErrCode) (s : State) : (takeFault c s).inputs = s.inputs := rfl
@[simp] theorem takeFault_epoch (c : ErrCode) (s : State) : (takeFault c s).epoch = s.epoch := rfl

/-! ## startSession a s -/

@[simp] theorem startSession_h (a : Alg) (s : State) : (startSession a s).h = iv a := rfl
@[simp] theorem startSession_v (a : Alg) (s : State) : (startSession a s).v = s.v := rfl
@[simp] theorem startSession_w (a : Alg) (s : State) : (startSession a s).w = s.w := rfl
@[simp] theorem startSession_buf (a : Alg) (s : State) : (startSession a s).buf = s.buf := rfl
@[simp] theorem startSession_dg (a : Alg) (s : State) : (startSession a s).dg = s.dg := rfl
@[simp] theorem startSession_len (a : Alg) (s : State) : (startSession a s).len = 0 := rfl
@[simp] theorem startSession_cnt (a : Alg) (s : State) : (startSession a s).cnt = 0 := rfl
@[simp] theorem startSession_t (a : Alg) (s : State) : (startSession a s).t = 0 := rfl
@[simp] theorem startSession_ph (a : Alg) (s : State) : (startSession a s).ph = s.ph := rfl
@[simp] theorem startSession_st (a : Alg) (s : State) : (startSession a s).st = .absorb := rfl
@[simp] theorem startSession_alg (a : Alg) (s : State) : (startSession a s).alg = a := rfl
@[simp] theorem startSession_err (a : Alg) (s : State) : (startSession a s).err = .none := rfl
@[simp] theorem startSession_finf (a : Alg) (s : State) : (startSession a s).finf = false := rfl
@[simp] theorem startSession_lw (a : Alg) (s : State) : (startSession a s).lw = false := rfl
@[simp] theorem startSession_rspv (a : Alg) (s : State) : (startSession a s).rspv = false := rfl
@[simp] theorem startSession_rspd (a : Alg) (s : State) : (startSession a s).rspd = s.rspd := rfl
@[simp] theorem startSession_inputs (a : Alg) (s : State) : (startSession a s).inputs = s.inputs := rfl
@[simp] theorem startSession_epoch (a : Alg) (s : State) : (startSession a s).epoch = s.epoch := rfl

/-! ## dropPins s -/

@[simp] theorem dropPins_h (s : State) : (dropPins s).h = s.h := rfl
@[simp] theorem dropPins_v (s : State) : (dropPins s).v = s.v := rfl
@[simp] theorem dropPins_w (s : State) : (dropPins s).w = s.w := rfl
@[simp] theorem dropPins_buf (s : State) : (dropPins s).buf = s.buf := rfl
@[simp] theorem dropPins_dg (s : State) : (dropPins s).dg = s.dg := rfl
@[simp] theorem dropPins_len (s : State) : (dropPins s).len = s.len := rfl
@[simp] theorem dropPins_cnt (s : State) : (dropPins s).cnt = s.cnt := rfl
@[simp] theorem dropPins_t (s : State) : (dropPins s).t = s.t := rfl
@[simp] theorem dropPins_ph (s : State) : (dropPins s).ph = s.ph := rfl
@[simp] theorem dropPins_st (s : State) : (dropPins s).st = s.st := rfl
@[simp] theorem dropPins_alg (s : State) : (dropPins s).alg = s.alg := rfl
@[simp] theorem dropPins_err (s : State) : (dropPins s).err = s.err := rfl
@[simp] theorem dropPins_finf (s : State) : (dropPins s).finf = s.finf := rfl
@[simp] theorem dropPins_lw (s : State) : (dropPins s).lw = s.lw := rfl
@[simp] theorem dropPins_rspv (s : State) : (dropPins s).rspv = s.rspv := rfl
@[simp] theorem dropPins_rspd (s : State) : (dropPins s).rspd = s.rspd := rfl
@[simp] theorem dropPins_inputs (s : State) : (dropPins s).inputs = s.inputs.tail := rfl
@[simp] theorem dropPins_epoch (s : State) : (dropPins s).epoch = s.epoch := rfl

/-! ## State.afterReset n ps -/

@[simp] theorem afterReset_h (n : Nat) (ps : List Pins) : (State.afterReset n ps).h = Vector.ofFn fun j => Config.unspecifiedH n j.val := rfl
@[simp] theorem afterReset_v (n : Nat) (ps : List Pins) : (State.afterReset n ps).v = Vector.ofFn fun j => Config.unspecifiedV n j.val := rfl
@[simp] theorem afterReset_w (n : Nat) (ps : List Pins) : (State.afterReset n ps).w = Vector.ofFn fun i => Config.unspecifiedW n i.val := rfl
@[simp] theorem afterReset_buf (n : Nat) (ps : List Pins) : (State.afterReset n ps).buf = [] := rfl
@[simp] theorem afterReset_dg (n : Nat) (ps : List Pins) : (State.afterReset n ps).dg = [] := rfl
@[simp] theorem afterReset_len (n : Nat) (ps : List Pins) : (State.afterReset n ps).len = 0 := rfl
@[simp] theorem afterReset_cnt (n : Nat) (ps : List Pins) : (State.afterReset n ps).cnt = 0 := rfl
@[simp] theorem afterReset_t (n : Nat) (ps : List Pins) : (State.afterReset n ps).t = 0 := rfl
@[simp] theorem afterReset_ph (n : Nat) (ps : List Pins) : (State.afterReset n ps).ph = .idle := rfl
@[simp] theorem afterReset_st (n : Nat) (ps : List Pins) : (State.afterReset n ps).st = .idle := rfl
@[simp] theorem afterReset_alg (n : Nat) (ps : List Pins) : (State.afterReset n ps).alg = .sha512 := rfl
@[simp] theorem afterReset_err (n : Nat) (ps : List Pins) : (State.afterReset n ps).err = .none := rfl
@[simp] theorem afterReset_finf (n : Nat) (ps : List Pins) : (State.afterReset n ps).finf = false := rfl
@[simp] theorem afterReset_lw (n : Nat) (ps : List Pins) : (State.afterReset n ps).lw = false := rfl
@[simp] theorem afterReset_rspv (n : Nat) (ps : List Pins) : (State.afterReset n ps).rspv = false := rfl
@[simp] theorem afterReset_rspd (n : Nat) (ps : List Pins) : (State.afterReset n ps).rspd = Config.unspecifiedRSPD n := rfl
@[simp] theorem afterReset_inputs (n : Nat) (ps : List Pins) : (State.afterReset n ps).inputs = ps := rfl
@[simp] theorem afterReset_epoch (n : Nat) (ps : List Pins) : (State.afterReset n ps).epoch = n := rfl

/-! ## setSpace, memWrite, zeroFill -/

@[simp] theorem setSpace_buf (s : State) (m : Memory) : s.setSpace .buf m = { s with buf := m } := rfl
@[simp] theorem setSpace_dg (s : State) (m : Memory) : s.setSpace .dg m = { s with dg := m } := rfl
@[simp] theorem space_buf (s : State) : s.space .buf = s.buf := rfl
@[simp] theorem space_dg (s : State) : s.space .dg = s.dg := rfl

/-- Writing the block buffer changes the block buffer only. -/
theorem memWrite_buf (s : State) (addr n v : Nat) :
    memWrite s .buf addr n v = { s with buf := s.buf.writeBE addr n v } := rfl

/-- Writing the digest register changes the digest register only. -/
theorem memWrite_dg (s : State) (addr n v : Nat) :
    memWrite s .dg addr n v = { s with dg := s.dg.writeBE addr n v } := rfl

/-- Zero-filling the block buffer changes the block buffer only. -/
theorem zeroFill_buf (s : State) (lo hi : Nat) :
    zeroFill s .buf lo hi = { s with buf := s.buf.zeroRange lo hi } := rfl

/-- Zero-filling the digest register changes the digest register only. -/
theorem zeroFill_dg (s : State) (lo hi : Nat) :
    zeroFill s .dg lo hi = { s with dg := s.dg.zeroRange lo hi } := rfl

/-! ## The length counter -/

/-- The number of values of `LEN` (00_scope.md R6). -/
theorem two_pow_lenw : 2 ^ Config.LENW = 18446744073709551616 := rfl

/-- `LEN` is full exactly at `2^64 - 8` (45_commands.md R174). -/
theorem lenFull_iff (len : BitVec Config.LENW) : lenFull len = true ↔ len.toNat = 2 ^ 64 - 8 :=
  beq_iff_eq

/-- Below the full count, a multiple of 8 grows by 8 without wrapping (10_state.md R30). -/
theorem len_add_eight {len : BitVec Config.LENW} (h8 : len.toNat % 8 = 0) (hf : len.toNat ≠ 2 ^ 64 - 8) :
    (len + 8).toNat = len.toNat + 8 := by
  have hlt : len.toNat < 18446744073709551616 := len.isLt
  have h : (len + 8).toNat = (len.toNat + 8) % 18446744073709551616 := BitVec.toNat_add len 8
  omega

/-! ## resetCore -/

/-- Reset leaves nothing of the state but the coming port samples and the number of resets. -/
theorem resetCore_eq (s : State) : resetCore s = State.afterReset (s.epoch + 1) s.inputs := rfl

end Sys2Proof.Machine
end

