-- ==== Sys2Proof/Laws/Memory.lean ====
section
/-! SUPPORT. The laws of the byte spaces: read after write, and that every memory operation keeps the canonical form. -/

namespace Sys2Proof.Machine

open Sys2Proof Sys2Proof.Safety

/-- A read at the index just written gives the byte written. -/
@[simp] theorem Memory.read_write_same (m : Memory) (a : Nat) (b : Byte) :
    (Memory.write m a b).read a = some b := by
  induction m with
  | nil => simp [Memory.write, Memory.read]
  | cons c rest ih =>
    obtain ⟨x, y⟩ := c
    by_cases h₁ : a < x
    · simp [Memory.write, Memory.read, h₁]
    · by_cases h₂ : a = x
      · simp [Memory.write, Memory.read, h₂]
      · simp [Memory.write, Memory.read, h₁, h₂, Ne.symm h₂, ih]

/-- A write leaves every other index alone. -/
theorem Memory.read_write_other (m : Memory) (a : Nat) (b : Byte) {c : Nat} (h : c ≠ a) :
    (Memory.write m a b).read c = m.read c := by
  induction m with
  | nil => simp [Memory.write, Memory.read, Ne.symm h]
  | cons e rest ih =>
    obtain ⟨x, y⟩ := e
    by_cases h₁ : a < x
    · simp [Memory.write, Memory.read, h₁, Ne.symm h]
    · by_cases h₂ : a = x
      · subst h₂
        simp [Memory.write, Memory.read, Ne.symm h]
      · simp only [Memory.write, h₁, h₂, if_false, Memory.read, ih]

/-- What a write does to a read, in one equation. -/
theorem Memory.read_write (m : Memory) (a : Nat) (b : Byte) (c : Nat) :
    (Memory.write m a b).read c = if c = a then some b else m.read c := by
  split
  · subst_vars; simp
  · exact Memory.read_write_other m a b ‹_›

/-- The entries after a write are the old ones and the one written. -/
theorem Memory.mem_write {m : Memory} {a : Nat} {b : Byte} {e : Host.Cell} (h : e ∈ Memory.write m a b) :
    e = (a, b) ∨ e ∈ m := by
  induction m with
  | nil => simpa [Memory.write] using h
  | cons c rest ih =>
    obtain ⟨x, y⟩ := c
    simp only [Memory.write] at h
    split at h
    · simpa using h
    · split at h
      · rcases List.mem_cons.mp h with h | h
        · exact .inl h
        · exact .inr (List.mem_cons_of_mem _ h)
      · rcases List.mem_cons.mp h with h | h
        · exact .inr (h ▸ List.mem_cons_self)
        · exact (ih h).imp id (List.mem_cons_of_mem _)

theorem Memory.wf_cons (x : Nat) (y : Byte) (rest : Memory) :
    Memory.wf ((x, y) :: rest) = true ↔ (∀ c ∈ rest, x < c.1) ∧ Memory.wf rest = true := by
  simp [Memory.wf]

/-- A write keeps the canonical form. -/
theorem Memory.wf_write {m : Memory} (a : Nat) (b : Byte) (h : m.wf = true) : (Memory.write m a b).wf = true := by
  induction m with
  | nil => rfl
  | cons c rest ih =>
    obtain ⟨x, y⟩ := c
    obtain ⟨hlt, hrest⟩ := (Memory.wf_cons x y rest).mp h
    simp only [Memory.write]
    split
    · rename_i hax
      refine (Memory.wf_cons a b _).mpr ⟨fun c hc => ?_, h⟩
      rcases List.mem_cons.mp hc with rfl | hc
      · exact hax
      · exact hax.trans (hlt c hc)
    · split
      · rename_i heq
        subst heq
        exact (Memory.wf_cons a b _).mpr ⟨hlt, hrest⟩
      · refine (Memory.wf_cons x y _).mpr ⟨fun c hc => ?_, ih hrest⟩
        rcases Memory.mem_write hc with rfl | hc
        · simp only
          omega
        · exact hlt c hc

/-- An index below every entry holds no value. -/
theorem Memory.read_eq_none {m : Memory} {a : Nat} (h : ∀ c ∈ m, a < c.1) : m.read a = none := by
  induction m with
  | nil => rfl
  | cons c rest ih =>
    obtain ⟨x, y⟩ := c
    have hx : a < x := h (x, y) List.mem_cons_self
    simp only [Memory.read, if_neg (Nat.ne_of_gt hx)]
    exact ih fun c hc => h c (List.mem_cons_of_mem _ hc)

/-- The form is canonical: memories in it that read alike are equal data. -/
theorem Memory.eq_of_read_eq {m n : Memory} (hm : m.wf = true) (hn : n.wf = true)
    (h : ∀ a, m.read a = n.read a) : m = n := by
  induction m generalizing n with
  | nil =>
    cases n with
    | nil => rfl
    | cons c rest =>
      have := h c.1
      simp [Memory.read] at this
  | cons c rest ih =>
    obtain ⟨x, y⟩ := c
    obtain ⟨hlt, hrest⟩ := (Memory.wf_cons x y rest).mp hm
    cases n with
    | nil =>
      have := h x
      simp [Memory.read] at this
    | cons d rest' =>
      obtain ⟨x', y'⟩ := d
      obtain ⟨hlt', hrest'⟩ := (Memory.wf_cons x' y' rest').mp hn
      have hxx : x = x' := by
        rcases Nat.lt_trichotomy x x' with hl | he | hl
        · have h' := h x
          have hnone : Memory.read ((x', y') :: rest') x = none :=
            Memory.read_eq_none fun c hc => by
              rcases List.mem_cons.mp hc with rfl | hc
              · exact hl
              · exact hl.trans (hlt' c hc)
          rw [hnone] at h'
          simp [Memory.read] at h'
        · exact he
        · have h' := h x'
          have hnone : Memory.read ((x, y) :: rest) x' = none :=
            Memory.read_eq_none fun c hc => by
              rcases List.mem_cons.mp hc with rfl | hc
              · exact hl
              · exact hl.trans (hlt c hc)
          rw [hnone] at h'
          simp [Memory.read] at h'
      subst hxx
      have hyy : y = y' := by simpa [Memory.read] using h x
      subst hyy
      refine congrArg _ (ih hrest hrest' fun a => ?_)
      by_cases ha : x = a
      · subst ha
        rw [Memory.read_eq_none hlt, Memory.read_eq_none hlt']
      · simpa [Memory.read, ha] using h a

/-- A write inside a space keeps the space well formed. -/
theorem spaceOk_write {m : Memory} {size a : Nat} (h : SpaceOk m size) (ha : a < size) (b : Byte) :
    SpaceOk (Memory.write m a b) size :=
  ⟨Memory.wf_write a b h.1, fun c hc => by
    rcases Memory.mem_write hc with rfl | hc
    · exact ha
    · exact h.2 c hc⟩

/-- `n` writes at distinct indices: an index written reads as its byte. -/
theorem Memory.read_foldl_write_hit (f : Nat → Nat) (g : Nat → Byte) (hf : Function.Injective f) {n k : Nat} (m : Memory)
    (hk : k < n) :
    ((List.range n).foldl (fun acc k => Memory.write acc (f k) (g k)) m).read (f k) = some (g k) := by
  induction n with
  | zero => omega
  | succ n ih =>
    rw [List.range_succ, List.foldl_append]
    simp only [List.foldl_cons, List.foldl_nil, Memory.read_write]
    by_cases hkn : k = n
    · rw [hkn, if_pos rfl]
    · rw [if_neg (hf.ne hkn), ih (by omega)]

/-- `n` writes: an index not written reads as before. -/
theorem Memory.read_foldl_write_miss (f : Nat → Nat) (g : Nat → Byte) {n c : Nat} (m : Memory)
    (hc : ∀ k, k < n → f k ≠ c) :
    ((List.range n).foldl (fun acc k => Memory.write acc (f k) (g k)) m).read c = m.read c := by
  induction n with
  | zero => rfl
  | succ n ih =>
    rw [List.range_succ, List.foldl_append]
    simp only [List.foldl_cons, List.foldl_nil, Memory.read_write]
    rw [if_neg (Ne.symm (hc n (by omega))), ih fun k hk => hc k (by omega)]

/-- What `MemWrite` does to a read: byte `k` of the value inside the range, nothing outside it. -/
theorem Memory.read_writeBE (m : Memory) (addr n v c : Nat) :
    (m.writeBE addr n v).read c =
      if addr ≤ c ∧ c < addr + n then some (byteOfValue n (c - addr) v) else m.read c := by
  unfold Memory.writeBE
  split
  · obtain ⟨k, rfl⟩ : ∃ k, c = addr + k := ⟨c - addr, by omega⟩
    rw [Memory.read_foldl_write_hit (addr + ·) (fun k => byteOfValue n k v) (fun a b h => by simpa using h) m
      (by omega : k < n), Nat.add_sub_cancel_left]
  · exact Memory.read_foldl_write_miss (addr + ·) _ m fun k hk => by omega

/-- What a zero fill does to a read. -/
theorem Memory.read_zeroRange (m : Memory) (lo hi c : Nat) :
    (m.zeroRange lo hi).read c = if lo ≤ c ∧ c < hi then some 0x00#8 else m.read c := by
  unfold Memory.zeroRange
  split
  · obtain ⟨k, rfl⟩ : ∃ k, c = lo + k := ⟨c - lo, by omega⟩
    exact Memory.read_foldl_write_hit (lo + ·) (fun _ => 0x00#8) (fun a b h => by simpa using h) m
      (by omega : k < hi - lo)
  · exact Memory.read_foldl_write_miss (lo + ·) _ m fun k hk => by omega

/-- Consecutive writes inside a space keep it well formed. -/
theorem spaceOk_foldl_write {size : Nat} (l : List Nat) (f : Nat → Nat) (g : Nat → Byte) {m : Memory}
    (h : SpaceOk m size) (hl : ∀ k ∈ l, f k < size) :
    SpaceOk (l.foldl (fun acc k => Memory.write acc (f k) (g k)) m) size := by
  induction l generalizing m with
  | nil => exact h
  | cons k rest ih =>
    exact ih (spaceOk_write h (hl k List.mem_cons_self) _) fun j hj => hl j (List.mem_cons_of_mem _ hj)

/-- `MemWrite` inside a space keeps it well formed. -/
theorem spaceOk_writeBE {m : Memory} {size : Nat} (h : SpaceOk m size) (addr n v : Nat) (hn : addr + n ≤ size) :
    SpaceOk (m.writeBE addr n v) size :=
  spaceOk_foldl_write _ _ _ h fun k hk => by
    have := List.mem_range.mp hk
    omega

/-- A zero fill inside a space keeps it well formed. -/
theorem spaceOk_zeroRange {m : Memory} {size : Nat} (h : SpaceOk m size) (lo hi : Nat) (hn : hi ≤ size) :
    SpaceOk (m.zeroRange lo hi) size := by
  unfold Memory.zeroRange
  exact spaceOk_foldl_write _ _ _ h fun k hk => by
    have := List.mem_range.mp hk
    omega

/-- The byte spaces at reset have the canonical form. -/
theorem reset_spaces_wf : State.reset.buf.wf = true ∧ State.reset.dg.wf = true := ⟨rfl, rfl⟩

end Sys2Proof.Machine
end

