-- ==== Sys2Proof/Laws/Ops.lean ====
section
/-! SUPPORT. One lemma per shared operation: what it answers, and what follows when it answers. -/

namespace Sys2Proof.Machine

open Sys2Proof Sys2Proof.Safety

/-- A byte is read exactly where the index is inside the space and holds a value. -/
theorem readByte_eq_ok {s : State} {S : Space} {a : Nat} {b : Byte} :
    readByte s S a = .ok b ↔ a < S.size ∧ (s.space S).read a = some b := by
  unfold readByte
  by_cases ha : a < S.size
  · rw [if_pos ha]
    cases h : (s.space S).read a <;> simp [ha]
  · simp [ha]

/-- A stop of a byte read is one of two. -/
theorem readByte_eq_error {s : State} {S : Space} {a : Nat} {f : Fault} :
    readByte s S a = .error f ↔
      (¬ a < S.size ∧ f = .indexOutOfSpace) ∨ (a < S.size ∧ (s.space S).read a = none ∧ f = .unwrittenByte) := by
  unfold readByte
  by_cases ha : a < S.size
  · rw [if_pos ha]
    cases h : (s.space S).read a <;> simp [ha, eq_comm]
  · simp [ha, eq_comm]

/-- The big-endian value of a byte string one byte longer. -/
theorem packBE_append (l : List Byte) (b : Byte) : packBE (l ++ [b]) = packBE l * 256 + b.toNat := by
  simp [packBE, List.foldl_append]

/-- `MemRead` of written bytes inside the space is their big-endian value (00_scope.md R12). -/
theorem memRead_eq_packBE {s : State} {S : Space} {addr n : Nat} (f : Nat → Byte)
    (hin : addr + n ≤ S.size) (hf : ∀ k, k < n → (s.space S).read (addr + k) = some (f k)) :
    memRead s S addr n = .ok (packBE ((List.range n).map f)) := by
  induction n with
  | zero => rfl
  | succ n ih =>
    have hb : readByte s S (addr + n) = .ok (f n) := readByte_eq_ok.mpr ⟨by omega, hf n (by omega)⟩
    simp only [memRead, ih (by omega) fun k hk => hf k (by omega), hb, List.range_succ, List.map_append,
      List.map_cons, List.map_nil, packBE_append]

/-- A `MemRead` that answers has read written bytes inside the space. -/
theorem memRead_written {s : State} {S : Space} {addr n v : Nat} (h : memRead s S addr n = .ok v) {k : Nat}
    (hk : k < n) : addr + k < S.size ∧ ((s.space S).read (addr + k)).isSome := by
  induction n generalizing v with
  | zero => omega
  | succ n ih =>
    simp only [memRead] at h
    split at h
    · cases h
    · rename_i v' hv
      split at h
      · cases h
      · rename_i b hb
        rcases Nat.lt_succ_iff_lt_or_eq.mp hk with hk | rfl
        · exact ih hv hk
        · obtain ⟨h₁, h₂⟩ := readByte_eq_ok.mp hb
          exact ⟨h₁, by simp [h₂]⟩

/-- The one-byte `MemWrite` is the byte write. -/
theorem writeBE_one (m : Memory) (a : Nat) (b : Byte) : m.writeBE a 1 b.toNat = m.write a b := by
  simp [Memory.writeBE, byteOfValue]

/-- Appending a byte answers exactly below index 128, and changes the buffer at `CNT` and `CNT` itself. -/
theorem appendByte_eq_ok {s t : State} {b : Byte} :
    appendByte s b = .ok t ↔
      s.cnt.toNat < 128 ∧ t = { s with buf := s.buf.write s.cnt.toNat b, cnt := s.cnt + 1 } := by
  have hsz : Space.size .buf = 128 := rfl
  unfold appendByte
  rw [hsz, memWrite_buf, writeBE_one]
  by_cases h : s.cnt.toNat < 128 <;> simp [h, eq_comm]

/-- Going on after a read: a next state means that the read answered. -/
theorem orFault_eq_next {α : Type} {r : Except Fault α} {k : α → Result} {t : State} :
    orFault r k = .next t ↔ ∃ a, r = .ok a ∧ k a = .next t := by
  cases r <;> simp [orFault]

/-- The three ways of a command that is legal in one session state (30_encoding.md R76). -/
theorem ifSession_eq_next {legal : SessionState} {s t : State} {body : State → Result}
    (h : ifSession legal s body = .next t) :
    (s.st = .error ∧ t = clearResponse s) ∨
    (s.st ≠ .error ∧ s.st ≠ legal ∧ t = takeFault .cmdSequence s) ∨
    (s.st ≠ .error ∧ s.st = legal ∧ body (clearResponse s) = .next t) := by
  unfold ifSession at h
  split at h
  · exact .inl ⟨‹_›, by simpa [eq_comm] using h⟩
  · split at h
    · exact .inr (.inr ⟨‹_›, ‹_›, h⟩)
    · exact .inr (.inl ⟨‹_›, ‹_›, by simpa [eq_comm] using h⟩)

/-- Word `j` of a written block is `be64` of its eight bytes (00_scope.md R11, 10_state.md R25). -/
theorem blockWord_eq {s : State} {j : Nat} (f : Nat → Byte) (hj : j < 16)
    (hf : ∀ k, k < 8 → s.buf.read (8 * j + k) = some (f k)) :
    blockWord s j = .ok (be64 ((List.range 8).map f)) := by
  have hsz : Space.size .buf = 128 := rfl
  simp only [blockWord, memRead_eq_packBE (S := .buf) f (by omega) hf, be64]

/-- Loading the first `n` schedule words from a written block (41_scheduler.md R113). -/
theorem loadedSchedule_eq {s : State} (f : Nat → Byte) {n : Nat} (hn : n ≤ 16)
    (hf : ∀ a, a < 128 → s.buf.read a = some (f a)) :
    ∃ w, loadedSchedule s n = .ok w ∧ ∀ (i : Nat) (hi : i < 80),
      w[i] = if i < n then be64 ((List.range 8).map fun k => f (8 * i + k)) else s.w[i] := by
  induction n with
  | zero => exact ⟨s.w, rfl, fun i hi => by simp⟩
  | succ n ih =>
    obtain ⟨w, hw, hval⟩ := ih (by omega)
    refine ⟨w.setIfInBounds n (be64 ((List.range 8).map fun k => f (8 * n + k))), ?_, fun i hi => ?_⟩
    · simp only [loadedSchedule, hw]
      rw [blockWord_eq (fun k => f (8 * n + k)) (by omega) fun k hk => hf _ (by omega)]
    · rw [Vector.getElem_setIfInBounds hi]
      by_cases hni : n = i
      · subst hni
        simp
      · rw [if_neg hni, hval i hi]
        by_cases hlt : i < n
        · rw [if_pos hlt, if_pos (by omega)]
        · rw [if_neg hlt, if_neg (by omega)]

/-- A schedule load that answers has read a written block. -/
theorem loadedSchedule_written {s : State} {n : Nat} {w : Vector Word 80} (h : loadedSchedule s n = .ok w) {a : Nat}
    (ha : a < 8 * n) : (s.buf.read a).isSome := by
  induction n generalizing w with
  | zero => omega
  | succ n ih =>
    simp only [loadedSchedule] at h
    split at h
    · cases h
    · rename_i w' hw'
      split at h
      · cases h
      · rename_i x hx
        by_cases hlt : a < 8 * n
        · exact ih hw' hlt
        · unfold blockWord at hx
          split at hx
          · rename_i v hv
            have := (memRead_written hv (k := a - 8 * n) (by omega)).2
            rwa [show 8 * n + (a - 8 * n) = a by omega] at this
          · cases hx

/-- The schedule word of a step with `T` in range (41_scheduler.md R114). -/
theorem expandedWord_eq {w : Vector Word 80} {t : Nat} (h : 16 ≤ t ∧ t < 80) :
    expandedWord w t = .ok (ssig1 w[t - 2] + w[t - 7] + ssig0 w[t - 15] + w[t - 16]) := dif_pos h

/-- A schedule word is answered only with `T` in range. -/
theorem expandedWord_range {w : Vector Word 80} {t : Nat} {x : Word} (h : expandedWord w t = .ok x) :
    16 ≤ t ∧ t < 80 := by
  unfold expandedWord at h
  split at h
  · assumption
  · cases h

/-- The operands of a round with `T` in range (42_compressor.md R135). -/
theorem roundOperands_eq {w : Vector Word 80} {t : Nat} (h : t < 80) :
    roundOperands w t = .ok (roundConstant t, w[t]) := dif_pos h

/-- The operands of a round are answered only with `T` in range. -/
theorem roundOperands_range {w : Vector Word 80} {t : Nat} {x : Word × Word} (h : roundOperands w t = .ok x) :
    t < 80 := by
  unfold roundOperands at h
  split at h
  · assumption
  · cases h

/-- Byte `k` of a word's eight-byte form is `byte_k` (00_scope.md R11, R12). -/
theorem byteOfValue_word (x : Word) {k : Nat} (hk : k < 8) : byteOfValue 8 k x.toNat = byteK k x := by
  unfold byteOfValue byteK
  apply BitVec.eq_of_toNat_eq
  have : 8 * (8 - 1 - k) = 56 - 8 * k := by omega
  simp [BitVec.extractLsb'_toNat, this]

/-- The digest register before the cut: the serialised hash state (43_finalizer.md R150, R151). -/
theorem Memory.read_writeWords (m : Memory) (h : Vector Word 8) (c : Nat) :
    (m.writeWords h).read c = if hc : c < 64 then some (byteK (c % 8) (h[c / 8]'(by omega))) else m.read c := by
  have key : ∀ (n : Nat) (hn : n ≤ 8),
      Memory.read (((List.finRange 8).take n).foldl (fun acc j => Memory.writeBE acc (8 * j.val) 8 h[j].toNat) m) c =
        if hc : c < 8 * n then some (byteK (c % 8) (h[c / 8]'(by omega))) else m.read c := by
    intro n
    induction n with
    | zero => intro _; simp
    | succ n ih =>
      intro hn
      have hget : (List.finRange 8).take (n + 1) = (List.finRange 8).take n ++ [⟨n, by omega⟩] := by
        rw [List.take_succ_eq_append_getElem (by simpa using by omega)]
        simp
      rw [hget, List.foldl_append]
      simp only [List.foldl_cons, List.foldl_nil, Memory.read_writeBE, ih (by omega)]
      by_cases h₁ : 8 * n ≤ c ∧ c < 8 * n + 8
      · have hdiv : c / 8 = n := by omega
        rw [if_pos h₁, dif_pos (by omega), byteOfValue_word _ (by omega)]
        have hmod : c - 8 * n = c % 8 := by omega
        simp [hdiv, hmod]
      · rw [if_neg h₁]
        by_cases h₂ : c < 8 * n
        · rw [dif_pos h₂, dif_pos (by omega)]
        · rw [dif_neg h₂, dif_neg (by omega)]
  exact key 8 (le_refl 8)

/-- Writing the digest words keeps the digest register well formed. -/
theorem spaceOk_writeWords {m : Memory} (h : Vector Word 8) (hm : SpaceOk m 64) : SpaceOk (m.writeWords h) 64 := by
  have key : ∀ (l : List (Fin 8)) (m : Memory), SpaceOk m 64 →
      SpaceOk (l.foldl (fun acc j => Memory.writeBE acc (8 * j.val) 8 h[j].toNat) m) 64 := by
    intro l
    induction l with
    | nil => intro m hm; exact hm
    | cons j rest ih => exact fun m hm => ih _ (spaceOk_writeBE hm _ _ _ (by omega))
  exact key _ m hm

/-- What the digest register reads as after `FIN` loads it (43_finalizer.md R151). -/
theorem read_loadedDigest (alg : Alg) (h : Vector Word 8) (m : Memory) (c : Nat) :
    (loadedDigest alg h m).read c =
      if hc : c < 64 then
        (if alg = .sha384 ∧ 48 ≤ c then some 0#8 else some (byteK (c % 8) (h[c / 8]'(by omega))))
      else m.read c := by
  cases alg with
  | sha512 => simp [loadedDigest, Memory.read_writeWords]
  | sha384 =>
    simp only [loadedDigest, Memory.read_zeroRange, Memory.read_writeWords]
    by_cases hc : c < 64
    · by_cases h48 : 48 ≤ c <;> simp [hc, h48]
    · simp [hc]

/-- Loading the digest register keeps it well formed. -/
theorem spaceOk_loadedDigest {m : Memory} (alg : Alg) (h : Vector Word 8) (hm : SpaceOk m 64) :
    SpaceOk (loadedDigest alg h m) 64 := by
  cases alg with
  | sha512 => exact spaceOk_writeWords h hm
  | sha384 => exact spaceOk_zeroRange (spaceOk_writeWords h hm) _ _ (le_refl 64)

/-- `PH` names a micro-operation exactly when it is not `IDLE` (30_encoding.md R77). -/
theorem fetchUop_eq_error (s : State) : (∃ e, fetchUop s = .error e) ↔ s.ph = .idle := by
  unfold fetchUop
  cases s.ph <;> simp [Phase.code, decodeUop]

/-- Every way a step can go (00_scope.md R14). -/
theorem stepWith_cases (p : Pins) (s : State) :
    (p.rst = true ∧ stepWith p s = .next (resetCore s)) ∨
    (p.rst = false ∧ s.ph ≠ .idle ∧ ∃ i, fetchUop s = .ok i ∧ stepWith p s = exec i s) ∨
    (p.rst = false ∧ s.ph = .idle ∧ p.cmdValid = true ∧ stepWith p s = acceptWord p.cmd s) ∨
    (p.rst = false ∧ s.ph = .idle ∧ p.cmdValid = false ∧ stepWith p s = .next s) := by
  unfold stepWith
  cases hr : p.rst with
  | true => exact .inl ⟨rfl, by simp⟩
  | false =>
    cases hf : fetchUop s with
    | ok i =>
      refine .inr (.inl ⟨rfl, fun hi => ?_, i, rfl, by simp⟩)
      obtain ⟨e, he⟩ := (fetchUop_eq_error s).mpr hi
      rw [hf] at he
      cases he
    | error e =>
      have hi := (fetchUop_eq_error s).mp ⟨e, hf⟩
      cases hv : p.cmdValid with
      | true => exact .inr (.inr (.inl ⟨rfl, hi, rfl, by simp⟩))
      | false => exact .inr (.inr (.inr ⟨rfl, hi, rfl, by simp⟩))

end Sys2Proof.Machine
end

