-- ==== Sys2Proof/Laws/Algorithm.lean ====
section
/-! SUPPORT. Lemmas about the reference functions: the serialised hash state and what `FIN` loads. -/

namespace Sys2Proof.Machine

open Sys2Proof

/-- A hash state is its eight words. -/
theorem vector8_eq (h : Vector Word 8) : h = #v[h[0], h[1], h[2], h[3], h[4], h[5], h[6], h[7]] := by
  ext i hi
  interval_cases i <;> rfl

/-- Byte `n` of the serialised hash state is byte `n mod 8` of word `n / 8` (43_finalizer.md R150). -/
theorem getElem?_serialize (h : Vector Word 8) {n : Nat} (hn : n < 64) :
    (serialize h)[n]? = some (byteK (n % 8) (h[n / 8]'(by omega))) := by
  have key : ∀ a b c d e f g i : Word, ∀ n, (hn : n < 64) →
      (serialize #v[a, b, c, d, e, f, g, i])[n]? =
        some (byteK (n % 8) (#v[a, b, c, d, e, f, g, i][n / 8]'(by omega))) := by
    intro a b c d e f g i n hn
    interval_cases n <;> rfl
  have := key h[0] h[1] h[2] h[3] h[4] h[5] h[6] h[7] n hn
  simpa only [← vector8_eq h] using this

/-- The digest register holds `Finalize(alg, H)` after `FIN` loads it (43_finalizer.md R151). -/
theorem read_loadedDigest_eq_finalize (alg : Alg) (h : Vector Word 8) (m : Memory) {n : Nat} (hn : n < dlen alg) :
    (loadedDigest alg h m).read n = (finalize alg h)[n]? := by
  have h64 : n < 64 := by
    cases alg <;> simp only [dlen] at hn <;> omega
  have hcut : ¬ (alg = .sha384 ∧ 48 ≤ n) := by
    rintro ⟨rfl, h48⟩
    simp only [dlen] at hn
    omega
  rw [read_loadedDigest, dif_pos h64, if_neg hcut, finalize, List.getElem?_take_of_lt hn, getElem?_serialize h h64]

end Sys2Proof.Machine
end

