-- ==== Sys2Proof/Laws/PerInstr.lean ====
section
/-! SUPPORT. One fact for every instruction: its encoding is a word of its own row of spec/opcode_table.json, and of no other
row. -/

namespace Sys2Proof.Laws.OpcodeRow

open Sys2Proof

/-- The format, match and mask of an instruction's row in spec/opcode_table.json: 16 bits for `CMD16`, 4 for `UOP`. -/
def row : Instr → Nat × Nat × Nat
  | .init512 => (16, 0x0100, 0xffff)
  | .init384 => (16, 0x0101, 0xffff)
  | .data _ => (16, 0x0200, 0xff00)
  | .final => (16, 0x0300, 0xffff)
  | .rddg _ => (16, 0x0400, 0xffc0)
  | .p80 => (4, 0x1, 0xf)
  | .pz => (4, 0x2, 0xf)
  | .plen => (4, 0x3, 0xf)
  | .ldw => (4, 0x4, 0xf)
  | .exp => (4, 0x5, 0xf)
  | .ldv => (4, 0x6, 0xf)
  | .rnd => (4, 0x7, 0xf)
  | .add => (4, 0x8, 0xf)
  | .fin => (4, 0x9, 0xf)

/-- The width and the number of an instruction's bits. -/
def bits (i : Instr) : Nat × Nat :=
  match encode i with
  | .cmd16 cmd => (16, cmd.toNat)
  | .uop ph => (4, ph.toNat)

/-- A word of a width is selected by a row of that width with `(w & mask) = match` (30_encoding.md R71, R77). -/
def selects (r : Nat × Nat × Nat) (b : Nat × Nat) : Bool :=
  r.1 == b.1 && b.2 &&& r.2.2 == r.2.1

/-- All the rows of the table. -/
def rows : List (Nat × Nat × Nat) :=
  [row .init512, row .init384, row (.data 0), row .final, row (.rddg 0), row .p80, row .pz, row .plen, row .ldw,
    row .exp, row .ldv, row .rnd, row .add, row .fin]

/-- The encoding of a well-formed instruction is selected by the instruction's own row and by no other row. -/
def Statement (i : Instr) : Prop :=
  i.wellFormed = true → rows.filter (fun r => selects r (bits i)) = [row i]

theorem init512 : Statement .init512 := fun _ => by decide
theorem init384 : Statement .init384 := fun _ => by decide
theorem data (b : Byte) : Statement (.data b) := fun _ =>
  (show ∀ b : BitVec 8, rows.filter (fun r => selects r (bits (.data b))) = [row (.data b)] by decide +kernel) b
theorem final : Statement .final := fun _ => by decide
theorem rddg (n : Byte) : Statement (.rddg n) := fun h =>
  (show ∀ n : BitVec 8, (Instr.rddg n).wellFormed = true →
    rows.filter (fun r => selects r (bits (.rddg n))) = [row (.rddg n)] by decide +kernel) n h
theorem p80 : Statement .p80 := fun _ => by decide
theorem pz : Statement .pz := fun _ => by decide
theorem plen : Statement .plen := fun _ => by decide
theorem ldw : Statement .ldw := fun _ => by decide
theorem exp : Statement .exp := fun _ => by decide
theorem ldv : Statement .ldv := fun _ => by decide
theorem rnd : Statement .rnd := fun _ => by decide
theorem add : Statement .add := fun _ => by decide
theorem fin : Statement .fin := fun _ => by decide

end Sys2Proof.Laws.OpcodeRow
end

