-- ==== Sys2Proof/Laws/Rom.lean ====
section
/-! SUPPORT. The ROM tables against the integer formulas of 44_variants_constants.md R167: each entry is the first 64 bits of
the fractional part of a cube root (`K`) or a square root (`IV`) of a prime (log 11). -/

namespace Sys2Proof.Machine

open Sys2Proof

/-- The first eighty primes with the integer part of each one's cube root, in ten rows. -/
def primesWithCubeRoot : List (Nat × Nat) :=
  [(2, 1), (3, 1), (5, 1), (7, 1), (11, 2), (13, 2), (17, 2), (19, 2)] ++
  [(23, 2), (29, 3), (31, 3), (37, 3), (41, 3), (43, 3), (47, 3), (53, 3)] ++
  [(59, 3), (61, 3), (67, 4), (71, 4), (73, 4), (79, 4), (83, 4), (89, 4)] ++
  [(97, 4), (101, 4), (103, 4), (107, 4), (109, 4), (113, 4), (127, 5), (131, 5)] ++
  [(137, 5), (139, 5), (149, 5), (151, 5), (157, 5), (163, 5), (167, 5), (173, 5)] ++
  [(179, 5), (181, 5), (191, 5), (193, 5), (197, 5), (199, 5), (211, 5), (223, 6)] ++
  [(227, 6), (229, 6), (233, 6), (239, 6), (241, 6), (251, 6), (257, 6), (263, 6)] ++
  [(269, 6), (271, 6), (277, 6), (281, 6), (283, 6), (293, 6), (307, 6), (311, 6)] ++
  [(313, 6), (317, 6), (331, 6), (337, 6), (347, 7), (349, 7), (353, 7), (359, 7)] ++
  [(367, 7), (373, 7), (379, 7), (383, 7), (389, 7), (397, 7), (401, 7), (409, 7)]

/-- The first sixteen primes with the integer part of each one's square root. -/
def primesWithSquareRoot : List (Nat × Nat) :=
  [(2, 1), (3, 1), (5, 2), (7, 2), (11, 3), (13, 3), (17, 4), (19, 4)] ++
  [(23, 4), (29, 5), (31, 5), (37, 6), (41, 6), (43, 6), (47, 6), (53, 7)]

/-- `x = floor(p^(1/e) * 2^64) mod 2^64`, with integer part `a` of the root: `a * 2^64 + x` is the largest integer whose
`e`-th power is at most `p * 2^(64 e)`. -/
def isRootFraction (e : Nat) (pa : Nat × Nat) (x : Word) : Bool :=
  let r := pa.2 * 2 ^ 64 + x.toNat
  r ^ e ≤ pa.1 * 2 ^ (64 * e) && pa.1 * 2 ^ (64 * e) < (r + 1) ^ e

/-- `K` has eighty entries (10_state.md R23). -/
theorem roundConstants_length : roundConstants.length = 80 := by decide

/-- The rows bear the labels of the spec's table: 0, 4, 8, and so on to 76. -/
theorem roundConstantRows_labels : roundConstantRows.map (·.first) = (List.range 20).map (4 * ·) := by decide

/-- Every round constant is what R167 defines it to be. -/
theorem roundConstants_are_cube_roots :
    (List.zipWith (isRootFraction 3) primesWithCubeRoot roundConstants).all id = true ∧
      primesWithCubeRoot.length = 80 := by decide +kernel

/-- Every word of both initial hash values is what R167 defines it to be. -/
theorem iv_are_square_roots :
    (List.zipWith (isRootFraction 2) primesWithSquareRoot (ivSha512.toList ++ ivSha384.toList)).all id = true ∧
      primesWithSquareRoot.length = 16 ∧ (ivSha512.toList ++ ivSha384.toList).length = 16 := by decide +kernel

/-- Every listed number of the first table is prime, and no prime up to 409 is missing: they rise, and there are eighty
below 410. -/
theorem primes_complete :
    (List.range 410).filter (fun n => 2 ≤ n && (List.range n).all fun d => d < 2 || n % d != 0) =
      primesWithCubeRoot.map Prod.fst := by decide +kernel

end Sys2Proof.Machine
end

