-- ==== Sys2Proof/Tests/Slice0.lean ====
section
/-! SUPPORT. Tests with expected values from spec/95_test_vectors.md (V<n>) and from the rules, and for every statement with
hypotheses a witness that meets them. -/

namespace Sys2Proof.Tests

open Sys2Proof Sys2Proof.Machine Sys2Proof.Safety

/-! ## Helpers -/

/-- A state with every control register 0 and every word 0: small to evaluate. -/
def blank : State :=
  { State.reset with h := Vector.replicate 8 0, v := Vector.replicate 8 0, w := Vector.replicate 80 0, rspd := 0 }

/-- A blank state in a session state, a word presented. -/
def offered (st : SessionState) (cmd : BitVec 16) : State := { blank with st := st, inputs := [presenting cmd] }

/-- A blank state in a phase, in an open session. -/
def busyAt (ph : Phase) : State := { blank with st := .absorb, ph := ph }

/-- A byte space whose first bytes are given. -/
def bytesAt (l : List Byte) : Memory := (List.range l.length).zip l

/-- The block of "abc" (V23). -/
def abcBlock : List Byte := [0x61, 0x62, 0x63, 0x80] ++ List.replicate 123 0x00 ++ [0x18]

/-- An open session with `n` bytes 0x61 absorbed (V22 to V26), a word presented. -/
def absorbed (n : Nat) (cmd : BitVec 16) : State :=
  { blank with
    st := .absorb, h := ivSha512, buf := bytesAt (List.replicate n 0x61)
    cnt := BitVec.ofNat 8 n, len := BitVec.ofNat 64 (8 * n), inputs := [presenting cmd] }

/-- A closed session with a digest register of bytes 0xa7, a word presented. -/
def closed (alg : Alg) (cmd : BitVec 16) : State :=
  { blank with st := .done, alg := alg, dg := bytesAt (List.replicate 64 0xa7), inputs := [presenting cmd] }

/-- What a step answers as a next state. -/
def answer (r : Result) : Option State :=
  match r with
  | .next t => some t
  | .fault _ => none
  | .refused _ => none

/-- A fact about the next state of a step. -/
def after {α : Type} (s : State) (view : State → α) : Option α := (answer (step s)).map view

/-- `STATUS` and `RSP_VALID` after a step. -/
def portsAfter (s : State) : Option (BitVec 16 × Bool) := after s fun t => (statusWord t, t.rspv)

/-! ## Well-formedness: each check refuses an ill-formed term (30_encoding.md R73, R74, R78) -/

theorem test_wellFormed_refuses_op00 : wellFormedWord 0x0000 = false := by decide
theorem test_wellFormed_refuses_init_arg2 : wellFormedWord 0x0102 = false := by decide
theorem test_wellFormed_refuses_final_arg1 : wellFormedWord 0x0301 = false := by decide
theorem test_wellFormed_refuses_rddg_arg64 : wellFormedWord 0x0440 = false := by decide
theorem test_wellFormed_refuses_op05 : wellFormedWord 0x0500 = false := by decide
theorem test_wellFormed_refuses_rddg_term : (Instr.rddg 64).wellFormed = false := by decide
theorem test_wellFormed_refuses_phase0 : wellFormedPhase 0 = false := by decide
theorem test_wellFormed_refuses_phase10 : wellFormedPhase 10 = false := by decide

/-! ## Decoding: words written out from the tables of 30_encoding.md R71 and R77, one for every constructor -/

theorem test_decode_init512 : decodeCommand 0b00000001_00000000#16 = .ok .init512 := by decide
theorem test_decode_init384 : decodeCommand 0b00000001_00000001#16 = .ok .init384 := by decide
theorem test_decode_data : decodeCommand 0b00000010_01100001#16 = .ok (.data 0x61) := by decide
theorem test_decode_data_high : decodeCommand 0b00000010_11111111#16 = .ok (.data 0xff) := by decide
theorem test_decode_final : decodeCommand 0b00000011_00000000#16 = .ok .final := by decide
theorem test_decode_rddg : decodeCommand 0b00000100_00101111#16 = .ok (.rddg 47) := by decide
theorem test_decode_rddg_last : decodeCommand 0b00000100_00111111#16 = .ok (.rddg 63) := by decide
theorem test_decode_p80 : decodeUop 0b0001#4 = .ok .p80 := by decide
theorem test_decode_pz : decodeUop 0b0010#4 = .ok .pz := by decide
theorem test_decode_plen : decodeUop 0b0011#4 = .ok .plen := by decide
theorem test_decode_ldw : decodeUop 0b0100#4 = .ok .ldw := by decide
theorem test_decode_exp : decodeUop 0b0101#4 = .ok .exp := by decide
theorem test_decode_ldv : decodeUop 0b0110#4 = .ok .ldv := by decide
theorem test_decode_rnd : decodeUop 0b0111#4 = .ok .rnd := by decide
theorem test_decode_add : decodeUop 0b1000#4 = .ok .add := by decide
theorem test_decode_fin : decodeUop 0b1001#4 = .ok .fin := by decide
theorem test_decode_refuses :
    decodeCommand 0x0000 = .error .unassignedOp ∧ decodeCommand 0x0102 = .error .initArg ∧
    decodeCommand 0x0301 = .error .finalArg ∧ decodeCommand 0x0440 = .error .rddgArg ∧
    decodeCommand 0x0500 = .error .unassignedOp ∧ decodeCommand 0xffff = .error .unassignedOp ∧
    decodeUop 0x0 = .error .idlePhase ∧ decodeUop 0xa = .error .reservedPhase := by decide

/-- `withFetchWord` places every table word where the next step runs it (log 10). -/
theorem test_withFetchWord_runs :
    (answer (step (blank.withFetchWord 16 0x0101))).map statusWord = some 0x0005 ∧
    (answer (step (blank.withFetchWord 8 0x3))).map (·.lw) = some true ∧
    (answer (step (blank.withFetchWord 8 0x5))).map (·.t) = some 17 ∧
    (answer (step (blank.withFetchWord 8 0x7))).map (·.t) = some 1 := by decide

/-! ## Word operations (V11 to V21, V48, V49) -/

theorem test_add_wraps : (0xffffffffffffffff : Word) + 1 = 0 ∧ (0x8000000000000000 : Word) + 0x8000000000000000 = 0 := by
  decide
theorem test_rotr : rotr 1 1 = 0x8000000000000000 ∧ rotr 0x0123456789abcdef 8 = 0xef0123456789abcd ∧
    rotr 0x0123456789abcdef 61 = 0x091a2b3c4d5e6f78 := by decide
theorem test_shr : shr 0xffffffffffffffff 7 = 0x01ffffffffffffff ∧ shr 0x8000000000000000 6 = 0x0200000000000000 := by
  decide
theorem test_be64 : be64 [0x61, 0x62, 0x63, 0x80, 0, 0, 0, 0] = 0x6162638000000000 := by decide
theorem test_byteK : (List.range 8).map (fun k => byteK k 0xddaf35a193617aba) =
    [0xdd, 0xaf, 0x35, 0xa1, 0x93, 0x61, 0x7a, 0xba] := by decide
/-- Row V48i. -/
theorem test_sigmas : ssig0 0x0123456789abcdef = 0x6f92c77c6c4f1aa1 ∧ ssig1 0x0123456789abcdef = 0x70a3460dbbd4317a ∧
    bsig0 0x0123456789abcdef = 0xb7c57a100c7ec1ab ∧ bsig1 0x0123456789abcdef = 0x7703112333475567 := by decide
/-- Rows V49d and V49e. -/
theorem test_ch_maj :
    ch 0x510e527fade682d1 0x9b05688c2b3e6c1f 0x1f83d9abfb41bd6b = 0x1f85c98c7b273d3b ∧
    maj 0x510e527fade682d1 0x9b05688c2b3e6c1f 0x1f83d9abfb41bd6b = 0x1b0758afab66ac5b ∧
    ch 0xaaaaaaaaaaaaaaaa 0xffffffffffffffff 0 = 0xaaaaaaaaaaaaaaaa := by decide

/-! ## The reference functions (V3, V4, V22 to V24, V32) -/

theorem test_kpad : [0, 3, 111, 112, 127, 128, 240].map (fun l => kpad (8 * l)) =
    [895, 871, 7, 1023, 903, 895, 1023] := by decide
theorem test_pad_abc : pad [0x61, 0x62, 0x63] = abcBlock := by decide
theorem test_schedule_abc : [17, 19, 63, 79].map (fun i => (schedule abcBlock).getD i 0) =
    [0x00030000000000c0, 0x00000c0060000603, 0xcc4918b5949206bb, 0x92aeeed1a7bcf7d2] := by decide +kernel
theorem test_hash512_abc : (hash .sha512 [0x61, 0x62, 0x63]).take 8 =
    [0xdd, 0xaf, 0x35, 0xa1, 0x93, 0x61, 0x7a, 0xba] := by decide +kernel
theorem test_hash384_abc : (hash .sha384 [0x61, 0x62, 0x63]).drop 40 =
    [0x58, 0xba, 0xec, 0xa1, 0x34, 0xc8, 0x25, 0xa7] := by decide +kernel

/-! ## One step of each instruction -/

/-- V51, V73: the initial hash value, and the fault cleared. -/
theorem test_init512 : portsAfter (offered .idle 0x0100) = some (0x0001, false) ∧
    after (offered .error 0x0100) (fun t => (t.h.toList.getD 0 0, t.st)) = some (0x6a09e667f3bcc908, .absorb) := by
  decide
/-- V52, V75. -/
theorem test_init384 : portsAfter (offered .idle 0x0101) = some (0x0005, false) ∧
    after (offered .done 0x0101) (fun t => t.h.toList.getD 7 0) = some 0x47b5481dbefa4fa4 := by decide
/-- V53 and V54. -/
theorem test_data : portsAfter (offered .absorb 0x0261) = some (0x0101, false) ∧
    after (offered .absorb 0x0261) (fun t => (t.buf.read 0, t.len)) = some (some 0x61, 8) ∧
    portsAfter (offered .idle 0x0261) = some (0x0043, false) := by decide
/-- `InputTooLarge` at `LEN = 2^64 - 8`, not a byte earlier; the 128th byte starts the block (45_commands.md R174). -/
theorem test_data_limits :
    portsAfter { offered .absorb 0x0261 with len := 0xfffffffffffffff8 } = some (0x0013, false) ∧
    after { offered .absorb 0x0261 with len := 0xfffffffffffffff0 } (·.len) = some 0xfffffffffffffff8 ∧
    after (absorbed 127 0x0261) (fun t => (t.ph, t.cnt, t.buf.read 127)) = some (.ldw, 128, some 0x61) := by
  decide +kernel
/-- V55, and the padding started (45_commands.md R175). -/
theorem test_final : portsAfter (offered .idle 0x0300) = some (0x0043, false) ∧
    after (offered .absorb 0x0300) (fun t => (t.ph, t.finf, t.lw)) = some (.p80, true, false) := by decide
/-- V56, and the order of checks of V70. -/
theorem test_rddg_sequence : portsAfter (offered .idle 0x0400) = some (0x0043, false) ∧
    portsAfter { offered .absorb 0x0430 with alg := .sha384, cnt := 1 } = some (0x0147, false) := by decide
/-- V66, V67, V68 and V69 on a digest register of bytes 0xa7. -/
theorem test_rddg_index : after (closed .sha384 0x042f) (fun t => (statusWord t, t.rspv, t.rspd)) = some (0x0006, true, 0xa7) ∧
    portsAfter (closed .sha384 0x0430) = some (0x0057, false) ∧ portsAfter (closed .sha384 0x043f) = some (0x0057, false) ∧
    portsAfter (closed .sha512 0x043f) = some (0x0002, true) := by decide
/-- V60, V61, V63, V65, and V71. -/
theorem test_illegal_words : portsAfter (offered .idle 0x0000) = some (0x0033, false) ∧
    portsAfter { offered .absorb 0x0102 with cnt := 1 } = some (0x0133, false) ∧
    portsAfter (closed .sha512 0x0440) = some (0x0033, false) ∧
    portsAfter { offered .absorb 0xffff with alg := .sha384 } = some (0x0037, false) ∧
    portsAfter { offered .error 0x0000 with err := .cmdSequence } = some (0x0043, false) := by decide
/-- `RST` beats a presented command and a running micro-operation (90_conflicts.md C12). -/
theorem test_reset_wins : portsAfter { busyAt .rnd with inputs := [⟨true, true, 0x0100⟩] } = some (0x0000, false) := by
  decide
/-- V23: the marker after three bytes. -/
theorem test_p80 : after { busyAt .p80 with cnt := 3 } (fun t => (t.buf.read 3, t.cnt, t.ph)) = some (some 0x80, 4, .pz) := by
  decide
/-- V23 and V25: fill to the length field, or to the end of the block. -/
theorem test_pz : after { busyAt .pz with cnt := 4 } (fun t => [3, 4, 111, 112].map t.buf.read) =
      some [none, some 0, some 0, none] ∧
    after { busyAt .pz with cnt := 113 } (fun t => [112, 113, 127].map t.buf.read) = some [none, some 0, some 0] := by
  decide
/-- V24 and V26: nothing to fill at `CNT = 112` and at `CNT = 128`. -/
theorem test_pz_edges : after { busyAt .pz with cnt := 112 } (fun t => (t.buf, t.cnt, t.ph)) = some ([], 112, .plen) ∧
    after { busyAt .pz with cnt := 128 } (fun t => (t.buf, t.cnt, t.ph)) = some ([], 128, .ldw) := by decide
/-- V24 and V29: the length field of 888 bits and of the longest message. -/
theorem test_plen : after { busyAt .plen with len := 888 } (fun t => (t.buf.read 125, t.buf.read 126, t.buf.read 127)) =
      some (some 0x00, some 0x03, some 0x78) ∧
    after { busyAt .plen with len := 0xfffffffffffffff8 } (fun t => (t.buf.read 119, t.buf.read 120, t.buf.read 127)) =
      some (some 0x00, some 0xff, some 0xf8) := by decide
/-- V32: the first sixteen words of "abc". -/
theorem test_ldw : after { busyAt .ldw with buf := bytesAt abcBlock } (fun t => (t.w.toList.getD 0 0, t.w.toList.getD 15 0, t.t, t.ph)) =
    some (0x6162638000000000, 0x18, 16, .exp) := by decide +kernel
/-- V32: `W[16]` and `W[17]` of "abc" from the first sixteen words. -/
theorem test_exp :
    after { busyAt .exp with t := 16, w := (Vector.replicate 80 0).setIfInBounds 0 0x6162638000000000 }
      (fun t => (t.w.toList.getD 16 0, t.t, t.ph)) = some (0x6162638000000000, 17, .exp) ∧
    after { busyAt .exp with t := 17, w := (Vector.replicate 80 0).setIfInBounds 15 0x18 }
      (fun t => t.w.toList.getD 17 0) = some 0x00030000000000c0 := by decide
/-- 42_compressor.md R134. -/
theorem test_ldv : after { busyAt .ldv with h := ivSha384, t := 80 } (fun t => (t.v.toList.getD 1 0, t.t, t.ph)) =
    some (0x629a292a367cd507, 0, .rnd) := by decide
/-- V30: round 0 of "abc". -/
theorem test_rnd :
    after { busyAt .rnd with v := ivSha512, w := (Vector.replicate 80 0).setIfInBounds 0 0x6162638000000000 }
      (fun t => (t.v.toList, t.t, t.ph)) =
    some ([0xf6afceb8bcfcddf5, 0x6a09e667f3bcc908, 0xbb67ae8584caa73b, 0x3c6ef372fe94f82b, 0x58cb02347ab51f91,
      0x510e527fade682d1, 0x9b05688c2b3e6c1f, 0x1f83d9abfb41bd6b], 1, .rnd) := by decide
/-- V13, and the three ways on (42_compressor.md R136). -/
theorem test_add :
    after { busyAt .add with h := ivSha512, v := Vector.replicate 8 0x73a54f399fa4b1b2, cnt := 128, t := 80 }
      (fun t => (t.h.toList.getD 0 0, t.cnt, t.t, t.ph)) = some (0xddaf35a193617aba, 0, 0, .idle) ∧
    after { busyAt .add with finf := true } (·.ph) = some .pz ∧
    after { busyAt .add with finf := true, lw := true } (·.ph) = some .fin := by decide
/-- V21 at word 0, and the cut of SHA-384 (43_finalizer.md R151). -/
theorem test_fin :
    after { busyAt .fin with h := Vector.replicate 8 0xddaf35a193617aba } (fun t => (t.dg.read 0, t.dg.read 63, t.st, t.ph)) =
      some (some 0xdd, some 0xba, .done, .idle) ∧
    after { busyAt .fin with alg := .sha384, h := Vector.replicate 8 0xddaf35a193617aba }
      (fun t => (t.dg.read 47, t.dg.read 48, t.dg.read 63)) = some (some 0xba, some 0x00, some 0x00) := by decide
/-- The model's own stops (logs 2, 9). -/
theorem test_stops : step (busyAt .ldw) = .fault .unwrittenByte ∧ step (busyAt .exp) = .fault .indexOutOfSpace ∧
    step { busyAt .rnd with t := 80 } = .fault .indexOutOfSpace ∧
    step (offered .done 0x0400) = .fault .unwrittenByte := ⟨rfl, rfl, rfl, rfl⟩
/-- The byte widths of `LEN` that a model may choose: 10 and 4 bits (00_scope.md R6). -/
theorem test_lenFull_widths : lenFull (0x3f8 : BitVec 10) = true ∧ lenFull (0x3f0 : BitVec 10) = false ∧
    lenFull (0x8 : BitVec 4) = true := by decide

/-! ## Scripts (30_encoding.md R79, R80) -/

theorem test_script_expands : expandScript .sha512 [.init384, .rep 2 0x61, .final, .rddg 47] =
    some [.word 0x0101, .word 0x0261, .word 0x0261, .word 0x0300, .word 0x042f] := by decide
theorem test_script_range : expandScript .sha512 [.data 256] = none ∧ expandScript .sha512 [.rddg 64] = none := by decide
theorem test_script_line : readLine "  RDDG 0x2f ; last".toList = some (some (.rddg 47)) ∧
    readLine "; only a comment".toList = some none ∧ readLine "NOP".toList = none := by decide

/-- The empty message: in quotes (00_scope.md R16), and with no digits (log 21), with a comment or without. -/
theorem test_script_empty_message : readLine ['H', 'A', 'S', 'H', '5', '1', '2', ' ', '"', '"'] = some (some (.hash512 [])) ∧
    readLine "HASH512".toList = some (some (.hash512 [])) ∧ readLine "HASH512 ; none".toList = some (some (.hash512 [])) ∧
    readLine "MSGHEX".toList = some (some (.msg [])) ∧ readLine "MSG".toList = none := by decide +kernel

/-! ## Witnesses: states and operands that meet the hypotheses of the statements -/

theorem witness_DecodeInvertsEncode :
    (Instr.rddg 63).wellFormed = true ∧ (Instr.data 255).wellFormed = true ∧ Instr.fin.wellFormed = true := by decide
theorem witness_EncodeInvertsDecode :
    decode (.cmd16 0x043f) = .ok (.rddg 63) ∧ decode (.uop 9) = .ok .fin := by decide
theorem witness_StepRunsTheDecodedInstruction :
    (NotReset (busyAt .rnd) ∧ decodeUop (busyAt .rnd).ph.code = .ok .rnd) ∧
    (NotReset (offered .idle 0x0261) ∧ (offered .idle 0x0261).ph = .idle ∧
      (currentPins (offered .idle 0x0261)).cmdValid = true ∧
      decodeCommand (currentPins (offered .idle 0x0261)).cmd = .ok (.data 0x61)) := by
  unfold NotReset; decide
theorem witness_BusyCoreIgnoresTheCommandPort :
    (busyAt .rnd).ph ≠ .idle ∧ (presenting 0x0100).rst = false ∧ quietPins.rst = false := by decide
theorem witness_QuietReadyCoreRetainsState :
    NotReset blank ∧ blank.ph = .idle ∧ (currentPins blank).cmdValid = false := by unfold NotReset; decide
theorem witness_ResetOverridesEverything :
    (currentPins { busyAt .rnd with inputs := [⟨true, true, 0x0100⟩] }).rst = true := by decide
theorem witness_DataAbsorbsByteOrFaults :
    (offered .error 0x0261).st = .error ∧ (offered .idle 0x0261).st = .idle ∧ (offered .done 0x0261).st = .done ∧
    ({ blank with st := .absorb, len := 0xfffffffffffffff8 } : State).len.toNat = 2 ^ 64 - 8 ∧
    ((absorbed 127 0x0261).st = .absorb ∧ (absorbed 127 0x0261).len.toNat ≠ 2 ^ 64 - 8 ∧
      (absorbed 127 0x0261).cnt.toNat + 1 = 128) ∧
    ((absorbed 0 0x0261).st = .absorb ∧ (absorbed 0 0x0261).len.toNat ≠ 2 ^ 64 - 8 ∧
      (absorbed 0 0x0261).cnt.toNat < 128) := by decide
theorem witness_FinalStartsPaddingOrFaults :
    (offered .error 0x0300).st = .error ∧ (offered .idle 0x0300).st = .idle ∧ (offered .done 0x0300).st = .done ∧
    (offered .absorb 0x0300).st = .absorb := by decide
theorem witness_RddgReturnsDigestByteOrFaults :
    (0x3f : Byte).toNat ≤ 63 ∧ (offered .error 0x043f).st = .error ∧ (offered .idle 0x043f).st = .idle ∧
    (offered .absorb 0x043f).st = .absorb ∧
    ((closed .sha384 0x0430).st = .done ∧ (closed .sha384 0x0430).alg = .sha384 ∧ 48 ≤ (0x30 : Byte).toNat) ∧
    ((closed .sha384 0x042f).st = .done ∧ (0x2f : Byte).toNat < 48 ∧ (closed .sha384 0x042f).dg.read 47 = some 0xa7) ∧
    ((closed .sha512 0x043f).st = .done ∧ (closed .sha512 0x043f).alg = .sha512 ∧
      (closed .sha512 0x043f).dg.read 63 = some 0xa7) := by decide
/-- A word of each ill-formed class at the edge of its range. -/
theorem witness_IllFormedWordRaisesCmdIllegal :
    (0x00ff#16).toNat / 256 = 0 ∧ 5 ≤ (0x0500#16).toNat / 256 ∧
    ((0x0102#16).toNat / 256 = 1 ∧ 2 ≤ (0x0102#16).toNat % 256) ∧
    ((0x0301#16).toNat / 256 = 3 ∧ (0x0301#16).toNat % 256 ≠ 0) ∧
    ((0x0440#16).toNat / 256 = 4 ∧ 0x40 ≤ (0x0440#16).toNat % 256) ∧
    ((offered .error 0).ph = .idle ∧ (offered .error 0).st = .error) ∧
    ((offered .absorb 0).ph = .idle ∧ (offered .absorb 0).st ≠ .error) ∧
    (0x30 ≤ (0x30 : Byte).toNat ∧ (0x3f : Byte).toNat ≤ 0x3f) := by decide
theorem witness_FaultEntryWritesThreeRegisters :
    ∃ t, stepWith (presenting 0x0000) (offered .absorb 0) = .next t ∧ (offered .absorb 0).st ≠ .error ∧ t.st = .error :=
  ⟨_, rfl, by decide, rfl⟩
theorem witness_ErrorStateIgnoresAllButInit :
    (offered .error 0).ph = .idle ∧ (offered .error 0).st = .error ∧ 0x0102#16 ≠ 0x0100#16 ∧ 0x0102#16 ≠ 0x0101#16 := by
  decide

/-- The invariant of a faulted core. -/
theorem inv_faulted (inputs : List Pins) : Inv { blank with st := .error, err := .cmdSequence, inputs := inputs } where
  bufOk := ⟨rfl, by intro c hc; cases hc⟩
  dgOk := ⟨rfl, by intro c hc; cases hc⟩
  lenBytes := rfl
  position := ⟨by show 0 ≤ 127; decide, rfl, rfl, rfl, nofun⟩
  bufWritten := by intro a ha; exact absurd ha (Nat.not_lt_zero a)
  busyAbsorb := fun h => absurd rfl h
  errExact := ⟨fun _ => rfl, nofun⟩
  noAllocation := nofun
  responseDone := nofun
  digestHeld := nofun
  tailZero := nofun

/-- The invariant of an open session of `n` bytes, for the lengths at the edge of one padding block. -/
theorem inv_absorbed (n : Nat) (hn : n = 0 ∨ n = 111 ∨ n = 112 ∨ n = 127) (cmd : BitVec 16) : Inv (absorbed n cmd) := by
  have hbuf : SpaceOk (bytesAt (List.replicate n 0x61)) 128 ∧
      WrittenBelow (bytesAt (List.replicate n 0x61)) (BitVec.ofNat 8 n).toNat := by
    unfold SpaceOk WrittenBelow
    rcases hn with rfl | rfl | rfl | rfl <;> decide +kernel
  have hlen : (BitVec.ofNat 64 (8 * n)).toNat % 8 = 0 ∧ (BitVec.ofNat 8 n).toNat ≤ 127 ∧
      (BitVec.ofNat 8 n).toNat = (BitVec.ofNat 64 (8 * n)).toNat / 8 % 128 := by
    rcases hn with rfl | rfl | rfl | rfl <;> decide
  exact
    { bufOk := hbuf.1
      dgOk := ⟨rfl, by intro c hc; cases hc⟩
      lenBytes := hlen.1
      position := ⟨hlen.2.1, rfl, rfl, rfl, fun _ => hlen.2.2⟩
      bufWritten := hbuf.2
      busyAbsorb := fun h => absurd rfl h
      errExact := ⟨fun h => absurd rfl h, nofun⟩
      noAllocation := nofun
      responseDone := nofun
      digestHeld := nofun
      tailZero := nofun }

theorem witness_ErrorIsLeftOnlyByInitOrReset :
    (∃ s t, Inv s ∧ s.st = .error ∧ stepWith resetPins s = .next t ∧ t.st ≠ .error) ∧
    (∃ s t, Inv s ∧ s.st = .error ∧ stepWith (presenting 0x0101) s = .next t ∧ t.st ≠ .error) :=
  ⟨⟨_, _, inv_faulted [], rfl, rfl, nofun⟩, ⟨_, _, inv_faulted [], rfl, rfl, nofun⟩⟩
theorem witness_AllocationFailureIsNeverRaised :
    ∃ t, step { blank with err := .allocationFailure } = .next t ∧ t.err = .allocationFailure := ⟨_, rfl, rfl⟩
theorem witness_MicroOperationsRaiseNothing :
    ∃ t, (busyAt .fin).ph ≠ .idle ∧ NotReset (busyAt .fin) ∧ step (busyAt .fin) = .next t := ⟨_, nofun, rfl, rfl⟩
theorem witness_PadMarkerIsAppended : ({ busyAt .p80 with cnt := 127 } : State).cnt.toNat < 128 := by decide
theorem witness_ZeroFillStopsAtLengthFieldOrBlockEnd :
    ({ busyAt .pz with cnt := 112 } : State).cnt.toNat ≤ 112 ∧
    (113 ≤ ({ busyAt .pz with cnt := 113 } : State).cnt.toNat ∧ ({ busyAt .pz with cnt := 113 } : State).cnt.toNat ≤ 128) ∧
    (113 ≤ ({ busyAt .pz with cnt := 128 } : State).cnt.toNat ∧ ({ busyAt .pz with cnt := 128 } : State).cnt.toNat ≤ 128) := by
  decide
theorem witness_LoadWordsReadsBlockBigEndian :
    ∃ (s : State) (f : Nat → Byte), ∀ a, a < 128 → s.buf.read a = some (f a) :=
  ⟨{ busyAt .ldw with buf := bytesAt abcBlock }, fun a => abcBlock.getD a 0, by decide +kernel⟩
theorem witness_ExpandWritesOneScheduleWord :
    (16 ≤ ({ busyAt .exp with t := 16 } : State).t.toNat ∧ ({ busyAt .exp with t := 16 } : State).t.toNat < 80) ∧
    (16 ≤ ({ busyAt .exp with t := 79 } : State).t.toNat ∧ ({ busyAt .exp with t := 79 } : State).t.toNat < 80) := by decide
theorem witness_RoundUpdatesWorkingState :
    ({ busyAt .rnd with t := 0 } : State).t.toNat < 80 ∧ ({ busyAt .rnd with t := 79 } : State).t.toNat < 80 := by decide
theorem witness_FinalizerLoadsDigestRegister :
    (7 < 8 ∧ (busyAt .fin).alg = .sha512) ∧ (7 < 8 ∧ (5 : Fin 8).val < 6) ∧
    ({ busyAt .fin with alg := .sha384 } : State).alg = .sha384 := by decide
/-- Every clause of the transition table has a state that runs. -/
theorem witness_SequencerFollowsItsTable :
    (∀ s ∈ [busyAt .p80, busyAt .pz, { busyAt .pz with cnt := 113 }, busyAt .plen,
        { busyAt .ldw with buf := bytesAt abcBlock }, { busyAt .exp with t := 16 }, { busyAt .exp with t := 79 },
        busyAt .ldv, busyAt .rnd, { busyAt .rnd with t := 79 }, busyAt .add, { busyAt .add with finf := true },
        { busyAt .add with finf := true, lw := true }, busyAt .fin],
      NotReset s ∧ (answer (step s)).isSome) ∧
    (∀ s ∈ [{ busyAt .pz with cnt := 113 }, busyAt .plen, absorbed 127 0x0261], after s (·.ph) = some .ldw) := by
  unfold NotReset; decide +kernel
theorem witness_StepKeepsInvariant :
    ∃ t, Inv (absorbed 127 0x0261) ∧ step (absorbed 127 0x0261) = .next t :=
  ⟨_, inv_absorbed 127 (by decide) _, rfl⟩
theorem witness_InvariantStatesNeverStop : Inv (absorbed 112 0x0300) := inv_absorbed 112 (by decide) _
/-- A word presented after reset, and the state after its step. -/
theorem witness_ReachableStatesNeverStop :
    ∃ t, Reachable t ∧ t.st = .absorb :=
  ⟨_, .step _ _ (.environment _ [presenting 0x0100] .reset) rfl, rfl⟩
theorem witness_ScheduleAfterExpansion :
    ∃ s : State, s.ph = .ldw ∧ HoldsBlock s abcBlock ∧ NoResetFor 65 s :=
  ⟨{ busyAt .ldw with buf := bytesAt abcBlock }, rfl, ⟨rfl, by decide +kernel⟩, nofun⟩
theorem witness_BlockCompressesHash :
    ∃ s : State, s.ph = .ldw ∧ HoldsBlock s abcBlock ∧ NoResetFor 147 s :=
  ⟨{ busyAt .ldw with buf := bytesAt abcBlock }, rfl, ⟨rfl, by decide +kernel⟩, nofun⟩
theorem witness_FinalOwes151Or299MicroOperations :
    (Inv (absorbed 111 finalWord) ∧ (absorbed 111 finalWord).st = .absorb ∧
      Accepts (absorbed 111 finalWord) finalWord ∧ NoResetFor 300 (absorbed 111 finalWord) ∧
      (absorbed 111 finalWord).cnt.toNat ≤ 111) ∧
    (Inv (absorbed 112 finalWord) ∧ (absorbed 112 finalWord).st = .absorb ∧
      Accepts (absorbed 112 finalWord) finalWord ∧ NoResetFor 300 (absorbed 112 finalWord) ∧
      ¬ (absorbed 112 finalWord).cnt.toNat ≤ 111) := by
  refine ⟨⟨inv_absorbed 111 (by decide) _, rfl, ⟨rfl, rfl, rfl, rfl⟩, ?_, by decide⟩,
    ⟨inv_absorbed 112 (by decide) _, rfl, ⟨rfl, rfl, rfl, rfl⟩, ?_, by decide⟩⟩ <;>
  · unfold NoResetFor; decide
theorem witness_SessionComputesHash : (offered .error 0).ph = .idle ∧ 8 * [0x61, 0x62, 0x63].length < 2 ^ 64 := by decide
theorem witness_SessionForgetsThePast : (absorbed 112 0).ph = .idle ∧ (closed .sha384 0).ph = .idle := by decide
theorem witness_PaddingMeetsItsContract : 0 < [0x61#8].length ∧ ([0x61#8].length < 2 ∧ 2 < (pad [0x61]).length - 16) ∧
    15 < 16 := by decide +kernel
theorem witness_ScheduleMeetsItsRecurrence : abcBlock.length = 128 := by decide +kernel
theorem witness_RotationAndShiftByBits : (0 < 1 ∧ 1 < 64) ∧ (0 < 63 ∧ 63 < 64) := by decide
theorem witness_LogicalFunctionsByBits : 0 < 64 ∧ 63 < 64 := by decide
theorem witness_BigEndianPackingAndItsInverse : (7 < 8) ∧ 24 < 2 ^ 128 := by decide
/-- An accepted `RDDG` in range, an accepted one out of range, a step that accepts nothing, and a reset. -/
theorem witness_ResponseRegisterHoldsTheLastRead :
    (∃ t, stepWith (presenting 0x042f) (closed .sha384 0) = .next t ∧ (closed .sha384 0).ph = .idle ∧
      0x042f#16 = 0x0400#16 + (0x2f : Byte).setWidth 16 ∧ (0x2f : Byte).toNat < dlen (closed .sha384 0).alg ∧
      (closed .sha384 0).st = .done) ∧
    (∃ t, stepWith (presenting 0x0430) (closed .sha384 0) = .next t ∧ t.rspv = false) ∧
    (∃ t, stepWith (presenting 0x0100) (busyAt .ldv) = .next t ∧ (busyAt .ldv).ph ≠ .idle) ∧
    (∃ t, stepWith resetPins (busyAt .ldv) = .next t) :=
  ⟨⟨_, rfl, rfl, rfl, by decide, rfl⟩, ⟨_, rfl, rfl⟩, ⟨_, rfl, nofun⟩, ⟨_, rfl⟩⟩
theorem witness_WordStorageIsHiddenFromThePorts :
    ∃ t₁ t₂, NotReset (busyAt .fin) ∧ step (busyAt .fin) = .next t₁ ∧
      step { busyAt .fin with h := ivSha384, v := ivSha512, w := Vector.replicate 80 1 } = .next t₂ :=
  ⟨_, _, rfl, rfl, rfl⟩

end Sys2Proof.Tests
end

section
/-! PROOFS. Rotation and shift (00_scope.md R8, R9), and big-endian packing (R11). -/

namespace Sys2Proof.Machine

open Sys2Proof

/-- Bit `i` of a rotated word is bit `(i + n) mod 64` of the word (00_scope.md R8): the right shift supplies the bits that
do not wrap, the left shift those that do. -/
theorem getLsbD_rotr (x : Word) {n i : Nat} (hn₀ : 0 < n) (hn : n < 64) (hi : i < 64) :
    (rotr x n).getLsbD i = x.getLsbD ((i + n) % 64) := by
  unfold rotr
  rw [BitVec.getLsbD_or, BitVec.getLsbD_ushiftRight, BitVec.getLsbD_shiftLeft]
  rcases Nat.lt_or_ge (i + n) 64 with hstay | hwrap
  · have hlow : i < 64 - n := by omega
    rw [Nat.mod_eq_of_lt hstay]
    simp [hlow, Nat.add_comm]
  · have hhigh : ¬ i < 64 - n := by omega
    have hmod : (i + n) % 64 = i - (64 - n) := by omega
    have hout : x.getLsbD (n + i) = false := BitVec.getLsbD_of_ge x _ (by omega)
    simp [hi, hhigh, hmod, hout]

/-- The logical right shift divides by a power of two (00_scope.md R9). -/
theorem toNat_shr (x : Word) (n : Nat) : (shr x n).toNat = x.toNat / 2 ^ n := by
  rw [shr, BitVec.toNat_ushiftRight, Nat.shiftRight_eq_div_pow]

/-- A packed byte string fits the bits of its bytes. -/
theorem packBE_lt (bytes : List Byte) : packBE bytes < 256 ^ bytes.length := by
  induction bytes using List.reverseRecOn with
  | nil => decide
  | append_singleton l b ih =>
    rw [packBE_append, List.length_append, List.length_singleton, Nat.pow_succ]
    have := b.isLt
    omega

/-- `be64` of eight bytes loses nothing of the packed value. -/
theorem toNat_be64 {bytes : List Byte} (h : bytes.length = 8) : (be64 bytes).toNat = packBE bytes := by
  have hlt := packBE_lt bytes
  rw [h] at hlt
  rw [be64, BitVec.toNat_ofNat]
  exact Nat.mod_eq_of_lt hlt

/-- `byte_k` as a number (00_scope.md R11). -/
theorem toNat_byteK (k : Nat) (x : Word) : (byteK k x).toNat = x.toNat / 2 ^ (56 - 8 * k) % 256 := by
  rw [byteK, BitVec.extractLsb'_toNat, Nat.shiftRight_eq_div_pow]

/-- The first `n` bytes of a word pack to its `8n` most significant bits. -/
theorem packBE_leading_byteK (x : Word) {n : Nat} (hn : n ≤ 8) :
    packBE ((List.range n).map fun k => byteK k x) = x.toNat / 2 ^ (64 - 8 * n) := by
  induction n with
  | zero => exact (Nat.div_eq_of_lt x.isLt).symm
  | succ n ih =>
    have hexp : 64 - 8 * n = (56 - 8 * n) + 8 := by omega
    rw [List.range_succ, List.map_append, List.map_singleton, packBE_append, ih (by omega), toNat_byteK, hexp,
      Nat.pow_add, ← Nat.div_div_eq_div_mul, show 64 - 8 * (n + 1) = 56 - 8 * n by omega]
    exact Nat.div_add_mod' _ 256

/-- `be64` puts a word's eight bytes together again (00_scope.md R11). -/
theorem be64_byteK (x : Word) : be64 ((List.range 8).map fun k => byteK k x) = x := by
  apply BitVec.eq_of_toNat_eq
  rw [toNat_be64 (by simp), packBE_leading_byteK x (le_refl 8)]
  exact Nat.div_one _

/-- Byte `k` of an `n`-byte big-endian form, by division (00_scope.md R12). -/
theorem byteOfValue_eq_div (n k v : Nat) :
    byteOfValue n k v = BitVec.ofNat 8 (v / 2 ^ (8 * (n - 1 - k)) % 256) := by
  apply BitVec.eq_of_toNat_eq
  simp [byteOfValue, Nat.shiftRight_eq_div_pow]

/-- `be128` is sixteen bytes. -/
@[simp] theorem length_be128 (v : Nat) : (be128 v).length = 16 := by
  rw [be128, List.length_map, List.length_range]

/-- Byte `k` of `be128`, most significant first (00_scope.md R11). -/
theorem getElem?_be128 (v : Nat) {k : Nat} (hk : k < 16) :
    (be128 v)[k]? = some (BitVec.ofNat 8 (v / 2 ^ (120 - 8 * k) % 256)) := by
  have hexp : 8 * (16 - 1 - k) = 120 - 8 * k := by omega
  rw [be128, List.getElem?_map, List.getElem?_range hk, Option.map_some, byteOfValue_eq_div, hexp]

/-- Settles O47: packing eight bytes loses nothing, by the bound on packed values, and the bytes of a word pack back to it,
by induction on how many of its leading bytes are packed. -/
theorem bigEndianPackingAndItsInverse : Obligations.BigEndianPackingAndItsInverse := by
  refine ⟨fun b0 b1 b2 b3 b4 b5 b6 b7 => ?_, fun x k _ => toNat_byteK k x, be64_byteK,
    fun v _ => ⟨length_be128 v, fun k hk => getElem?_be128 v hk⟩⟩
  rw [toNat_be64 rfl]
  simp only [packBE, List.foldl_cons, List.foldl_nil]
  ring

/-- Settles O45, by whether the rotated bit wraps. -/
theorem rotationAndShiftByBits : Obligations.RotationAndShiftByBits :=
  fun x n hn₀ hn => ⟨rfl, fun _ hi => getLsbD_rotr x hn₀ hn hi, toNat_shr x n⟩

end Sys2Proof.Machine
end

section
/-! PROOFS. The host's view of the state: the `STATUS` word (10_state.md R40, R41) and the response register (R39). -/

namespace Sys2Proof.Machine

open Sys2Proof

/-! ## `STATUS`, `BUSY` and `CMD_READY` -/

/-- Appended bits put the upper part above the lower one. -/
theorem toNat_append_eq_mul_add {m n : Nat} (x : BitVec m) (y : BitVec n) :
    (x ++ y).toNat = x.toNat * 2 ^ n + y.toNat := by
  rw [BitVec.toNat_append, ← Nat.shiftLeft_add_eq_or_of_lt y.isLt, Nat.shiftLeft_eq]

/-- `BUSY = (PH != IDLE)` (10_state.md R41). -/
theorem busy_iff (s : State) : busy s = true ↔ s.ph ≠ .idle := bne_iff_ne

/-- `CMD_READY = (PH = IDLE)` (10_state.md R41). -/
theorem cmdReady_iff (s : State) : cmdReady s = true ↔ s.ph = .idle := by
  rw [cmdReady, Bool.not_eq_true', ← Bool.not_eq_true, busy_iff, not_not]

/-- The bit `BUSY` as a number. -/
theorem toNat_ofBool_busy (s : State) : (BitVec.ofBool (busy s)).toNat = if s.ph = .idle then 0 else 1 := by
  by_cases h : s.ph = .idle <;> simp [busy, h]

/-- `STATUS` as a sum of its fields, each at its own place (10_state.md R40). -/
theorem toNat_statusWord (s : State) :
    (statusWord s).toNat =
      s.cnt.toNat * 2 ^ 8 + s.err.code.toNat * 2 ^ 4 + (if s.ph = .idle then 0 else 1) * 2 ^ 3 +
        s.alg.code.toNat * 2 ^ 2 + s.st.code.toNat := by
  simp only [statusWord, toNat_append_eq_mul_add, toNat_ofBool_busy, BitVec.toNat_ofNat]
  omega

/-- Bit 7 of `STATUS` is always 0 (10_state.md R40): `CNT` stands above it, and `ERR`, `BUSY`, `ALG` and `ST` add up to
less than `2^7`. -/
theorem getLsbD_statusWord_seven (s : State) : (statusWord s).getLsbD 7 = false := by
  have herr := s.err.code.isLt
  have halg := s.alg.code.isLt
  have hst := s.st.code.isLt
  have hbit : (statusWord s).toNat / 2 ^ 7 % 2 = 0 := by
    rw [toNat_statusWord]
    split <;> omega
  rw [← BitVec.testBit_toNat, Nat.testBit_eq_decide_div_mod_eq, hbit]
  rfl

/-- Settles O48, field by field. -/
theorem statusWordLayout : Obligations.StatusWordLayout :=
  fun s => ⟨toNat_statusWord s, getLsbD_statusWord_seven s, busy_iff s, cmdReady_iff s⟩

/-! ## The response register -/

/-- The word of a well-formed `RDDG n` and no other decodes to it (30_encoding.md R71). -/
theorem decodeCommand_eq_rddg_iff {cmd : BitVec 16} {n : Byte} :
    decodeCommand cmd = .ok (.rddg n) ↔ cmd = 0x0400#16 + n.setWidth 16 ∧ n.toNat < 64 := by
  have hop : opField cmd = 0x04#8 ↔ cmd.toNat / 256 = 4 := by
    rw [← BitVec.toNat_inj, opField, BitVec.extractLsb'_toNat, Nat.shiftRight_eq_div_pow, BitVec.toNat_ofNat]
    omega
  have harg : argField cmd = n ↔ cmd.toNat % 256 = n.toNat := by
    rw [← BitVec.toNat_inj, argField, BitVec.extractLsb'_toNat, Nat.shiftRight_eq_div_pow, Nat.pow_zero, Nat.div_one]
  have hfit : cmd.extractLsb' 6 2 = 0#2 ↔ cmd.toNat / 64 % 4 = 0 := by
    rw [← BitVec.toNat_inj, BitVec.extractLsb'_toNat, Nat.shiftRight_eq_div_pow, BitVec.toNat_ofNat]
  have hword : cmd = 0x0400#16 + n.setWidth 16 ↔ cmd.toNat = 0x400 + n.toNat := by
    have := n.isLt
    rw [← BitVec.toNat_inj, BitVec.toNat_add, BitVec.toNat_setWidth, BitVec.toNat_ofNat]
    omega
  have hdec : decodeCommand cmd = .ok (.rddg n) ↔
      opField cmd = 0x04#8 ∧ cmd.extractLsb' 6 2 = 0#2 ∧ argField cmd = n := by
    -- Only the branch of operation code 4 with a fitting argument answers an `RDDG`.
    unfold decodeCommand
    split_ifs <;> simp_all
  have := n.isLt
  rw [hdec, hop, hfit, harg, hword]
  omega

/-- A digest is no longer than the digest register. -/
theorem dlen_le (a : Alg) : dlen a ≤ 64 := by cases a <;> decide

/-- The response register as it was (10_state.md R39). -/
def ResponseHeld (s t : State) : Prop := t.rspv = s.rspv ∧ t.rspd = s.rspd

/-- No response shown, the response byte as it was (10_state.md R39). -/
def ResponseCleared (s t : State) : Prop := t.rspv = false ∧ t.rspd = s.rspd

/-- The response register shows byte `n` of the digest register (10_state.md R39). -/
def ResponseLoaded (n : Byte) (s t : State) : Prop := t.rspv = true ∧ s.dg.read n.toNat = some t.rspd

/-- The command word reads a byte of the digest that is there: `RDDG n` in `DONE` with `n < DLEN(ALG)`
(45_commands.md R176). -/
def ReadsDigest (cmd : BitVec 16) (s : State) (n : Byte) : Prop :=
  cmd = 0x0400#16 + n.setWidth 16 ∧ n.toNat < dlen s.alg ∧ s.st = .done

/-- Appending a byte leaves the response register alone. -/
theorem appendByte_holds_response {s t : State} {b : Byte} (h : appendByte s b = .ok t) : ResponseHeld s t := by
  obtain ⟨-, rfl⟩ := appendByte_eq_ok.mp h
  exact ⟨rfl, rfl⟩

/-- No micro-operation writes the response register (10_state.md R39). -/
theorem uop_holds_response {s t : State} {i : Instr} (hi : fetchUop s = .ok i) (h : exec i s = .next t) :
    ResponseHeld s t := by
  unfold fetchUop at hi
  cases hph : s.ph <;> rw [hph] at hi <;> cases hi
  case p80 =>
    obtain ⟨s', hs', hk⟩ := orFault_eq_next.mp h
    have held := appendByte_holds_response hs'
    cases hk
    exact held
  case pz =>
    simp only [exec, execPz, zeroFill_buf] at h
    split at h <;> cases h <;> exact ⟨rfl, rfl⟩
  case plen =>
    simp only [exec, execPlen, memWrite_buf] at h
    cases h
    exact ⟨rfl, rfl⟩
  case ldw | exp | rnd =>
    obtain ⟨_, -, hk⟩ := orFault_eq_next.mp h
    cases hk
    exact ⟨rfl, rfl⟩
  case ldv | add | fin =>
    cases h
    exact ⟨rfl, rfl⟩

/-- A command that is legal in one session state clears the response register if its effect there does. -/
theorem ifSession_clears_response {legal : SessionState} {s t : State} {body : State → Result}
    (hbody : ∀ u, body (clearResponse s) = .next u → ResponseCleared s u) (h : ifSession legal s body = .next t) :
    ResponseCleared s t := by
  obtain ⟨-, rfl⟩ | ⟨-, -, rfl⟩ | ⟨-, -, heff⟩ := ifSession_eq_next h
  · exact ⟨rfl, rfl⟩
  · exact ⟨rfl, rfl⟩
  · exact hbody t heff

/-- The effect of `DATA` leaves the response cleared. -/
theorem absorbByte_clears_response {s t : State} {b : Byte} (h : absorbByte b (clearResponse s) = .next t) :
    ResponseCleared s t := by
  unfold absorbByte at h
  split at h
  · cases h
    exact ⟨rfl, rfl⟩
  · obtain ⟨s', hs', hk⟩ := orFault_eq_next.mp h
    have held := appendByte_holds_response hs'
    cases hk
    exact held

/-- Every accepted well-formed command but `RDDG` clears the response register (30_encoding.md R76 item 1). -/
theorem command_clears_response {cmd : BitVec 16} {s t : State} {i : Instr} (hi : decodeCommand cmd = .ok i)
    (hne : ∀ n, i ≠ .rddg n) (h : exec i s = .next t) : ResponseCleared s t := by
  unfold decodeCommand at hi
  split_ifs at hi <;> cases hi
  · cases h; exact ⟨rfl, rfl⟩
  · cases h; exact ⟨rfl, rfl⟩
  · exact ifSession_clears_response (fun _ => absorbByte_clears_response) h
  · exact ifSession_clears_response (fun u hu => by cases hu; exact ⟨rfl, rfl⟩) h
  · exact absurd rfl (hne _)

/-- `RDDG n` in `DONE` with `n` inside the digest shows the byte it reads (45_commands.md R176). -/
theorem execRddg_loads_response {s t : State} {n : Byte} (hst : s.st = .done) (hn : n.toNat < dlen s.alg)
    (h : execRddg n s = .next t) : ResponseLoaded n s t := by
  have hin : ¬ dlen (clearResponse s).alg ≤ n.toNat := Nat.not_le.mpr hn
  obtain ⟨herr, -⟩ | ⟨-, hother, -⟩ | ⟨-, -, heff⟩ := ifSession_eq_next h
  · simp [hst] at herr
  · exact absurd hst hother
  · rw [respond, if_neg hin] at heff
    obtain ⟨b, hb, hk⟩ := orFault_eq_next.mp heff
    obtain ⟨-, hbyte⟩ := readByte_eq_ok.mp hb
    cases hk
    exact ⟨rfl, hbyte⟩

/-- `RDDG n` in another session state, or with `n` outside the digest, clears the response register. -/
theorem execRddg_clears_response {s t : State} {n : Byte} (hno : ¬ (n.toNat < dlen s.alg ∧ s.st = .done))
    (h : execRddg n s = .next t) : ResponseCleared s t := by
  obtain ⟨-, rfl⟩ | ⟨-, -, rfl⟩ | ⟨-, hst, heff⟩ := ifSession_eq_next h
  · exact ⟨rfl, rfl⟩
  · exact ⟨rfl, rfl⟩
  · have hout : dlen (clearResponse s).alg ≤ n.toNat := Nat.not_lt.mp fun hlt => hno ⟨hlt, hst⟩
    rw [respond, if_pos hout] at heff
    cases heff
    exact ⟨rfl, rfl⟩

/-- A word that is no instruction clears the response register (30_encoding.md R76). -/
theorem acceptIllFormed_clears_response (s : State) : ResponseCleared s (acceptIllFormed s) := by
  unfold acceptIllFormed
  split <;> exact ⟨rfl, rfl⟩

/-- A word that reads a digest byte decodes to that read. -/
theorem ReadsDigest.decodes {cmd : BitVec 16} {s : State} {n : Byte} (h : ReadsDigest cmd s n) :
    decodeCommand cmd = .ok (.rddg n) := by
  obtain ⟨hcmd, hn, -⟩ := h
  exact decodeCommand_eq_rddg_iff.mpr ⟨hcmd, Nat.lt_of_lt_of_le hn (dlen_le s.alg)⟩

/-- A successful read loads the response register with the byte it reads (10_state.md R39). -/
theorem acceptWord_loads_response {cmd : BitVec 16} {s t : State} {n : Byte} (hread : ReadsDigest cmd s n)
    (h : acceptWord cmd s = .next t) : ResponseLoaded n s t := by
  rw [acceptWord, hread.decodes] at h
  obtain ⟨-, hn, hst⟩ := hread
  exact execRddg_loads_response hst hn h

/-- Every other accepted word clears the response register (10_state.md R39). -/
theorem acceptWord_clears_response {cmd : BitVec 16} {s t : State} (hread : ¬ ∃ n, ReadsDigest cmd s n)
    (h : acceptWord cmd s = .next t) : ResponseCleared s t := by
  unfold acceptWord at h
  split at h
  case h_1 i hi =>
    by_cases hrddg : ∃ n, i = .rddg n
    · obtain ⟨n, rfl⟩ := hrddg
      obtain ⟨hcmd, -⟩ := decodeCommand_eq_rddg_iff.mp hi
      exact execRddg_clears_response (fun hno => hread ⟨n, hcmd, hno⟩) h
    · exact command_clears_response hi (fun n hn => hrddg ⟨n, hn⟩) h
  case h_2 =>
    cases h
    exact acceptIllFormed_clears_response s

/-- A step that accepts a word is the acceptance of that word (45_commands.md R170). -/
theorem stepWith_eq_acceptWord {p : Pins} {s : State} (hrst : p.rst = false) (hvalid : p.cmdValid = true)
    (hidle : s.ph = .idle) : stepWith p s = acceptWord p.cmd s := by
  obtain ⟨h, -⟩ | ⟨-, h, -⟩ | ⟨-, -, -, h⟩ | ⟨-, -, h, -⟩ := stepWith_cases p s
  · exact absurd h (by simp [hrst])
  · exact absurd hidle h
  · exact h
  · exact absurd h (by simp [hvalid])

/-- The response register holds while no command is accepted (10_state.md R39). -/
theorem stepWith_holds_response {p : Pins} {s t : State} (hrst : p.rst = false)
    (hno : ¬ (p.rst = false ∧ p.cmdValid = true ∧ s.ph = .idle)) (h : stepWith p s = .next t) : ResponseHeld s t := by
  obtain ⟨hreset, -⟩ | ⟨-, -, i, hi, he⟩ | ⟨-, hidle, hvalid, -⟩ | ⟨-, -, -, he⟩ := stepWith_cases p s
  · exact absurd hreset (by simp [hrst])
  · exact uop_holds_response hi (he ▸ h)
  · exact absurd ⟨hrst, hvalid, hidle⟩ hno
  · rw [he] at h
    cases h
    exact ⟨rfl, rfl⟩

/-- Reset shows no response (10_state.md R39). -/
theorem stepWith_reset_rspv {p : Pins} {s t : State} (hrst : p.rst = true) (h : stepWith p s = .next t) :
    t.rspv = false := by
  rw [stepWith, if_pos hrst] at h
  cases h
  rfl

/-- Settles O49, by what an accepted word does in the two cases of a successful read and of any other word, and by what a
step that accepts nothing can be. -/
theorem responseRegisterHoldsTheLastRead : Obligations.ResponseRegisterHoldsTheLastRead := by
  intro p s t h accepted read
  have haccept : accepted → acceptWord p.cmd s = .next t := fun ⟨hrst, hvalid, hidle⟩ =>
    stepWith_eq_acceptWord hrst hvalid hidle ▸ h
  refine ⟨fun ha => ⟨fun hv => ?_, fun ⟨n, hn⟩ => ?_⟩, fun ha n hn => ?_, fun ha hno => ?_,
    fun hno hrst => stepWith_holds_response hrst hno h, fun hrst => stepWith_reset_rspv hrst h⟩
  · by_contra hno
    obtain ⟨hclear, -⟩ := acceptWord_clears_response hno (haccept ha)
    exact absurd hv (by simp [hclear])
  · obtain ⟨hvalid, -⟩ := acceptWord_loads_response hn (haccept ha)
    exact hvalid
  · obtain ⟨-, hbyte⟩ := acceptWord_loads_response hn (haccept ha)
    exact hbyte
  · obtain ⟨-, hkept⟩ := acceptWord_clears_response hno (haccept ha)
    exact hkept

end Sys2Proof.Machine
end

section
/-! PROOFS. The host commands' encoding (30_encoding.md R70 to R75): the fields of a command word, the opcode rows by
match and mask, the well-formed words, and the acceptance of an ill-formed one. -/

namespace Sys2Proof.Machine

open Sys2Proof

/-! ## The fields of a command word -/

/-- A field of a bit vector as a number: divide by its place, cut to its width. -/
theorem extractLsb'_eq_iff {w start len : Nat} {x : BitVec w} {y : BitVec len} :
    x.extractLsb' start len = y ↔ x.toNat / 2 ^ start % 2 ^ len = y.toNat := by
  rw [← BitVec.toNat_inj, BitVec.extractLsb'_toNat, Nat.shiftRight_eq_div_pow]

/-- The field `op` is the upper byte's number (30_encoding.md R70). -/
theorem opField_eq_iff {cmd : BitVec 16} {op : BitVec 8} : opField cmd = op ↔ cmd.toNat / 256 = op.toNat := by
  rw [opField, extractLsb'_eq_iff]
  omega

/-- The field `arg` is the lower byte's number (30_encoding.md R70). -/
theorem argField_eq_iff {cmd : BitVec 16} {arg : BitVec 8} : argField cmd = arg ↔ cmd.toNat % 256 = arg.toNat := by
  rw [argField, extractLsb'_eq_iff]
  omega

/-- `cmd = (op << 8) | arg` as a sum (30_encoding.md R70). -/
theorem toNat_commandWord (op arg : BitVec 8) : (commandWord op arg).toNat = op.toNat * 256 + arg.toNat :=
  toNat_append_eq_mul_add op arg

@[simp] theorem opField_commandWord (op arg : BitVec 8) : opField (commandWord op arg) = op := by
  rw [opField_eq_iff, toNat_commandWord]
  omega

@[simp] theorem argField_commandWord (op arg : BitVec 8) : argField (commandWord op arg) = arg := by
  rw [argField_eq_iff, toNat_commandWord]
  omega

/-- A word is put together from two bytes exactly when they are its fields (30_encoding.md R70). -/
theorem commandWord_eq_iff {op arg : BitVec 8} {cmd : BitVec 16} :
    commandWord op arg = cmd ↔ opField cmd = op ∧ argField cmd = arg := by
  rw [← BitVec.toNat_inj, toNat_commandWord, opField_eq_iff, argField_eq_iff]
  omega

/-- An index fits the field of `RDDG` when `arg[7:6] = 0` (30_encoding.md R71). -/
theorem rddg_index_fits_iff (cmd : BitVec 16) : cmd.extractLsb' 6 2 = 0#2 ↔ (argField cmd).toNat ≤ 0x3f := by
  have harg : cmd.toNat % 256 = (argField cmd).toNat := argField_eq_iff.mp rfl
  rw [extractLsb'_eq_iff, ← harg, BitVec.toNat_ofNat]
  omega

/-! ## What the decoder answers -/

/-- A word decodes to an instruction exactly when it is the encoding of that instruction, well formed
(30_encoding.md R71, R75). -/
theorem decodeCommand_eq_ok_iff {cmd : BitVec 16} {i : Instr} :
    decodeCommand cmd = .ok i ↔ i.wellFormed = true ∧ encode i = .cmd16 cmd := by
  constructor
  · intro h
    have hword {op arg : BitVec 8} (hop : opField cmd = op) (harg : argField cmd = arg) :
        Code.cmd16 (commandWord op arg) = .cmd16 cmd := congrArg _ (commandWord_eq_iff.mpr ⟨hop, harg⟩)
    unfold decodeCommand at h
    split_ifs at h with hinit h512 h384 hdata hfinal hzero hrddg hfits <;> cases h
    · exact ⟨rfl, hword hinit h512⟩
    · exact ⟨rfl, hword hinit h384⟩
    · exact ⟨rfl, hword hdata rfl⟩
    · exact ⟨rfl, hword hfinal hzero⟩
    · exact ⟨decide_eq_true ((rddg_index_fits_iff cmd).mp hfits), hword hrddg rfl⟩
  · rintro ⟨hwf, henc⟩
    cases i <;> cases henc
    case init512.refl | init384.refl | final.refl => rfl
    case data.refl b => simp [decodeCommand]
    case rddg.refl n => simp [decodeCommand, rddg_index_fits_iff, of_decide_eq_true hwf]

/-- The operation codes of the map are 1 to 4; the decoder names every other one (30_encoding.md R71, R74). -/
theorem decodeCommand_eq_unassignedOp_iff {cmd : BitVec 16} :
    decodeCommand cmd = .error .unassignedOp ↔ cmd.toNat / 256 = 0 ∨ 5 ≤ cmd.toNat / 256 := by
  unfold decodeCommand
  simp only [opField_eq_iff, BitVec.toNat_ofNat]
  split_ifs <;> simp <;> omega

/-! ## The well-formed words -/

/-- `WellFormed(cmd)` over the numbers of its two fields (30_encoding.md R73). -/
abbrev FieldsWellFormed (op arg : Nat) : Prop :=
  (op = 1 ∧ arg / 2 = 0) ∨ op = 2 ∨ (op = 3 ∧ arg = 0) ∨ (op = 4 ∧ arg / 64 = 0)

/-- The check of R73, field by field. -/
theorem wellFormedWord_iff (cmd : BitVec 16) :
    wellFormedWord cmd = true ↔ FieldsWellFormed (cmd.toNat / 256) (cmd.toNat % 256) := by
  have hlt := cmd.isLt
  simp only [wellFormedWord, Bool.or_eq_true, Bool.and_eq_true, beq_iff_eq, extractLsb'_eq_iff, BitVec.toNat_ofNat]
  omega

/-- Decoding succeeds on the words of R73. -/
theorem decodeCommand_isOk_iff (cmd : BitVec 16) :
    (∃ i, decodeCommand cmd = .ok i) ↔ FieldsWellFormed (cmd.toNat / 256) (cmd.toNat % 256) := by
  unfold decodeCommand
  simp only [opField_eq_iff, argField_eq_iff, extractLsb'_eq_iff, BitVec.toNat_ofNat]
  split_ifs <;> simp <;> omega

/-- Settles O3, by the decoder's branches and by the check's disjuncts, each against the numbers of the two fields. -/
theorem decoderAcceptsExactlyWellFormedWords : Obligations.DecoderAcceptsExactlyWellFormedWords :=
  fun cmd => ⟨decodeCommand_isOk_iff cmd, wellFormedWord_iff cmd⟩

/-! ## Ill-formed words -/

/-- Decoding fails outside R73. -/
theorem decodeCommand_isError {cmd : BitVec 16} (h : ¬ FieldsWellFormed (cmd.toNat / 256) (cmd.toNat % 256)) :
    ∃ e, decodeCommand cmd = .error e := by
  rw [← decodeCommand_isOk_iff] at h
  cases hdec : decodeCommand cmd with
  | ok i => exact absurd ⟨i, hdec⟩ h
  | error e => exact ⟨e, rfl⟩

/-- The step that accepts an ill-formed word (30_encoding.md R74, R76). -/
theorem stepWith_presenting_illFormed {s : State} {cmd : BitVec 16} (hidle : s.ph = .idle)
    (h : ¬ FieldsWellFormed (cmd.toNat / 256) (cmd.toNat % 256)) :
    stepWith (presenting cmd) s = .next (acceptIllFormed s) := by
  obtain ⟨e, he⟩ := decodeCommand_isError h
  have haccept : stepWith (presenting cmd) s = acceptWord cmd s := stepWith_eq_acceptWord rfl rfl hidle
  rw [haccept, acceptWord, he]

/-- In `ERROR` an ill-formed word clears the response flag and is ignored (30_encoding.md R76). -/
theorem acceptIllFormed_of_error {s : State} (h : s.st = .error) : acceptIllFormed s = clearResponse s := if_pos h

/-- Outside `ERROR` an ill-formed word raises `CMD_ILLEGAL` (30_encoding.md R74). -/
theorem acceptIllFormed_of_ne_error {s : State} (h : s.st ≠ .error) : acceptIllFormed s = takeFault .cmdIllegal s :=
  if_neg h

/-- The word of a well-formed `RDDG` decodes to it (30_encoding.md R71). -/
theorem decodeCommand_rddgWord {n : Byte} (hn : n.toNat ≤ 0x3f) : decodeCommand (0x04#8 ++ n) = .ok (.rddg n) :=
  decodeCommand_eq_ok_iff.mpr ⟨decide_eq_true hn, rfl⟩

/-- Settles O15: the classes named are outside R73, and a word outside R73 is accepted as ill-formed. -/
theorem illFormedWordRaisesCmdIllegal : Obligations.IllFormedWordRaisesCmdIllegal := by
  refine ⟨fun s cmd hidle hclass => ?_, fun n _ hn => decodeCommand_rddgWord hn⟩
  have hill : ¬ FieldsWellFormed (cmd.toNat / 256) (cmd.toNat % 256) := by omega
  rw [stepWith_presenting_illFormed hidle hill]
  exact ⟨fun hst => congrArg _ (acceptIllFormed_of_error hst),
    fun hst => congrArg _ (acceptIllFormed_of_ne_error hst)⟩

/-! ## The opcode rows by match and mask -/

/-- A mask of all but the `k` lowest bits compares what stands above them. -/
theorem and_highMask_eq_iff (w : BitVec 16) {k m : Nat} (hm : m * 2 ^ k < 2 ^ 16) :
    w &&& (BitVec.allOnes 16 <<< k) = BitVec.ofNat 16 (m * 2 ^ k) ↔ w.toNat / 2 ^ k = m := by
  have hcut : w.toNat / 2 ^ k * 2 ^ k < 2 ^ 16 := Nat.lt_of_le_of_lt (Nat.div_mul_le_self _ _) w.isLt
  rw [← BitVec.shiftLeft_ushiftRight, ← BitVec.toNat_inj, BitVec.toNat_shiftLeft, BitVec.toNat_ushiftRight,
    Nat.shiftRight_eq_div_pow, Nat.shiftLeft_eq, Nat.mod_eq_of_lt hcut, BitVec.toNat_ofNat, Nat.mod_eq_of_lt hm]
  exact Nat.mul_left_inj (Nat.two_pow_pos k).ne'

/-- A row whose mask is all ones selects its match word, and no other word encodes its instruction. -/
theorem fullMask_eq_iff_decode {m : BitVec 16} {i : Instr} (hwf : i.wellFormed = true) (henc : encode i = .cmd16 m)
    (w : BitVec 16) : w &&& 0xffff#16 = m ↔ decodeCommand w = .ok i := by
  have hmask : w &&& 0xffff#16 = w := BitVec.and_allOnes
  rw [hmask, decodeCommand_eq_ok_iff, henc, Code.cmd16.injEq, eq_comm, and_iff_right hwf]

/-- A word is an operation code over its own lower byte exactly when its upper byte is that code. -/
theorem commandWord_setWidth_eq_iff {op : BitVec 8} {w : BitVec 16} :
    commandWord op (w.setWidth 8) = w ↔ w.toNat / 256 = op.toNat := by
  rw [commandWord_eq_iff, opField_eq_iff, argField_eq_iff, BitVec.toNat_setWidth]
  exact and_iff_left rfl

/-- The row of `DATA` (30_encoding.md R71). -/
theorem dataMask_eq_iff_decode (w : BitVec 16) :
    w &&& 0xff00#16 = 0x0200#16 ↔ decodeCommand w = .ok (.data (w.setWidth 8)) := by
  rw [decodeCommand_eq_ok_iff, encode, Code.cmd16.injEq, commandWord_setWidth_eq_iff, Instr.wellFormed,
    and_iff_right rfl]
  exact and_highMask_eq_iff (k := 8) (m := 2) w (by decide)

/-- The row of `RDDG`, whose mask holds `arg[7:6]` to zero (30_encoding.md R71). -/
theorem rddgMask_eq_iff_decode (w : BitVec 16) :
    w &&& 0xffc0#16 = 0x0400#16 ↔ decodeCommand w = .ok (.rddg (w.setWidth 8)) := by
  have hselect : w &&& 0xffc0#16 = 0x0400#16 ↔ w.toNat / 64 = 16 :=
    and_highMask_eq_iff (k := 6) (m := 16) w (by decide)
  rw [hselect, decodeCommand_eq_ok_iff, encode, Code.cmd16.injEq, commandWord_setWidth_eq_iff, Instr.wellFormed,
    decide_eq_true_iff, BitVec.toNat_setWidth, BitVec.toNat_ofNat]
  omega

/-- How many arguments are well formed under an operation code (30_encoding.md R71). -/
def wellFormedArgs : Nat → Nat
  | 1 => 2
  | 2 => 256
  | 3 => 1
  | 4 => 64
  | _ => 0

/-- Counting the arguments that R73 admits, code by code. -/
theorem countP_fieldsWellFormed (op : Nat) :
    (List.range 256).countP (fun arg => FieldsWellFormed op arg) = wellFormedArgs op := by
  match op with
  | 0 | 1 | 2 | 3 | 4 => decide +kernel
  | n + 5 =>
    have hnone : ∀ arg, ¬ FieldsWellFormed (n + 5) arg := by omega
    simp [wellFormedArgs, hnone]

/-- Counting the well-formed words of an operation code. -/
theorem countP_wellFormedWord {op : Nat} (hop : op < 256) :
    (List.range 256).countP (fun arg => wellFormedWord (BitVec.ofNat 16 (256 * op + arg))) = wellFormedArgs op := by
  rw [← countP_fieldsWellFormed]
  refine List.countP_congr fun arg harg => ?_
  have harg := List.mem_range.mp harg
  have hopField : (256 * op + arg) % 2 ^ 16 / 256 = op := by omega
  have hargField : (256 * op + arg) % 2 ^ 16 % 256 = arg := by omega
  rw [wellFormedWord_iff, BitVec.toNat_ofNat, hopField, hargField, decide_eq_true_iff]

/-- 2 + 256 + 1 + 64 words are well formed (30_encoding.md R71). -/
theorem sum_countP_wellFormedWord :
    ((List.range 256).map fun op =>
      (List.range 256).countP fun arg => wellFormedWord (BitVec.ofNat 16 (256 * op + arg))).sum = 323 := by
  have hrow : ((List.range 256).map fun op =>
      (List.range 256).countP fun arg => wellFormedWord (BitVec.ofNat 16 (256 * op + arg))) =
        (List.range 256).map wellFormedArgs :=
    List.map_congr_left fun _ hop => countP_wellFormedWord (List.mem_range.mp hop)
  rw [hrow]
  decide +kernel

/-- Settles O4, row by row, and by counting the arguments of each operation code. -/
theorem opcodeRowsSelectByMatchAndMask : Obligations.OpcodeRowsSelectByMatchAndMask :=
  ⟨fun w => ⟨fullMask_eq_iff_decode rfl rfl w, fullMask_eq_iff_decode rfl rfl w, dataMask_eq_iff_decode w,
    fullMask_eq_iff_decode rfl rfl w, rddgMask_eq_iff_decode w, decodeCommand_eq_unassignedOp_iff.symm⟩,
    sum_countP_wellFormedWord⟩

end Sys2Proof.Machine
end

section
/-! PROOFS. The Message Scheduler (41_scheduler.md): the logical functions by bits (R111, R112; 42_compressor.md R125
to R128), `Schedule(B)` (R110), and the run of `LDW` and 64 `EXP` (R115). -/

namespace Sys2Proof.Machine

open Sys2Proof Sys2Proof.Safety

/-! ## The logical functions -/

/-- Bit `i` of a logical right shift; above the word it is 0 (00_scope.md R9). -/
theorem getLsbD_shr (x : Word) (n i : Nat) : (shr x n).getLsbD i = x.getLsbD (i + n) := by
  rw [shr, BitVec.getLsbD_ushiftRight, Nat.add_comm]

/-- `CH` selects, bit by bit, between its second and third input (42_compressor.md R125). -/
theorem getLsbD_ch (x y z : Word) {i : Nat} (hi : i < 64) :
    (ch x y z).getLsbD i = if x.getLsbD i then y.getLsbD i else z.getLsbD i := by
  rw [ch, BitVec.getLsbD_xor, BitVec.getLsbD_and, BitVec.getLsbD_and, BitVec.getLsbD_not, decide_eq_true hi]
  cases x.getLsbD i <;> simp

/-- The majority of three bits, as an exclusive and as an inclusive disjunction (42_compressor.md R126). -/
theorem majority_xor_eq_or (a b c : Bool) :
    ((a && b) ^^ (a && c) ^^ (b && c)) = ((a && b) || (a && c) || (b && c)) := by
  revert a b c
  decide

/-- `MAJ` is the majority of its three inputs, bit by bit (42_compressor.md R126). -/
theorem getLsbD_maj (x y z : Word) (i : Nat) :
    (maj x y z).getLsbD i =
      ((x.getLsbD i && y.getLsbD i) || (x.getLsbD i && z.getLsbD i) || (y.getLsbD i && z.getLsbD i)) := by
  rw [← majority_xor_eq_or, maj, BitVec.getLsbD_xor, BitVec.getLsbD_xor, BitVec.getLsbD_and, BitVec.getLsbD_and,
    BitVec.getLsbD_and]

/-- The other form of `MAJ` (42_compressor.md R126). -/
theorem maj_eq_or (x y z : Word) : maj x y z = (x &&& (y ||| z)) ||| (y &&& z) := by
  apply BitVec.eq_of_getLsbD_eq
  intro i _
  rw [getLsbD_maj, BitVec.getLsbD_or, BitVec.getLsbD_and, BitVec.getLsbD_or, BitVec.getLsbD_and,
    Bool.and_or_distrib_left]

/-- Settles O46, by the bits of a rotation and of a shift. -/
theorem logicalFunctionsByBits : Obligations.LogicalFunctionsByBits := by
  intro x y z i hi
  have hrot : ∀ n, 0 < n → n < 64 → (rotr x n).getLsbD i = x.getLsbD ((i + n) % 64) :=
    fun n hn₀ hn => getLsbD_rotr x hn₀ hn hi
  refine ⟨?ssig0, ?ssig1, ?bsig0, ?bsig1, getLsbD_ch x y z hi, getLsbD_maj x y z i, maj_eq_or x y z⟩
  case ssig0 => simp [ssig0, hrot, getLsbD_shr]
  case ssig1 => simp [ssig1, hrot, getLsbD_shr]
  case bsig0 => simp [bsig0, hrot]
  case bsig1 => simp [bsig1, hrot]

/-! ## `Schedule(B)` -/

/-- Each further schedule word is one more. -/
theorem length_extendSchedule (n : Nat) (w : List Word) : (extendSchedule n w).length = w.length + n := by
  induction n generalizing w with
  | zero => rfl
  | succ n ih =>
    rw [extendSchedule, ih, List.length_append, List.length_singleton]
    omega

/-- Extending a schedule keeps the words it has. -/
theorem getD_extendSchedule_of_lt (n : Nat) {w : List Word} {i : Nat} (hi : i < w.length) :
    (extendSchedule n w).getD i 0 = w.getD i 0 := by
  induction n generalizing w with
  | zero => rfl
  | succ n ih =>
    rw [extendSchedule, ih (by rw [List.length_append]; omega), List.getD_append _ _ _ _ hi]

/-- The first word that extending a schedule adds. -/
theorem getD_extendSchedule_length (n : Nat) (w : List Word) :
    (extendSchedule (n + 1) w).getD w.length 0 = nextScheduleWord w := by
  rw [extendSchedule, getD_extendSchedule_of_lt n (by simp), List.getD_append_right _ _ _ _ (le_refl _), Nat.sub_self]
  rfl

/-- Every added word meets the recurrence over the extended schedule (41_scheduler.md R110). -/
theorem extendSchedule_recurrence {n : Nat} {w : List Word} {i : Nat} (hw : 16 ≤ w.length) (hlo : w.length ≤ i)
    (hhi : i < w.length + n) :
    (extendSchedule n w).getD i 0 =
      ssig1 ((extendSchedule n w).getD (i - 2) 0) + (extendSchedule n w).getD (i - 7) 0 +
        ssig0 ((extendSchedule n w).getD (i - 15) 0) + (extendSchedule n w).getD (i - 16) 0 := by
  induction n generalizing w with
  | zero => omega
  | succ n ih =>
    rcases Nat.eq_or_lt_of_le hlo with rfl | hlt
    · have hold : ∀ d, 0 < d → (extendSchedule (n + 1) w).getD (w.length - d) 0 = w.getD (w.length - d) 0 :=
        fun d hd => getD_extendSchedule_of_lt (n + 1) (by omega)
      rw [getD_extendSchedule_length, hold 2 (by omega), hold 7 (by omega), hold 15 (by omega), hold 16 (by omega)]
      rfl
    · have hlen : (w ++ [nextScheduleWord w]).length = w.length + 1 := List.length_append
      exact ih (by omega) (by omega) (by omega)

/-- The first sixteen words of a schedule, before it is extended. -/
theorem length_blockWords (block : List Byte) : ((List.range 16).map (wordOfBlock block)).length = 16 := by
  rw [List.length_map, List.length_range]

/-- `Schedule(B)` has eighty words (41_scheduler.md R110). -/
theorem length_schedule (block : List Byte) : (schedule block).length = 80 := by
  rw [schedule, length_extendSchedule, length_blockWords]

/-- The first sixteen schedule words are the block's (41_scheduler.md R110). -/
theorem getD_schedule_of_lt (block : List Byte) {i : Nat} (hi : i < 16) :
    (schedule block).getD i 0 = wordOfBlock block i := by
  rw [schedule, getD_extendSchedule_of_lt 64 (by rwa [length_blockWords]), List.getD_eq_getElem?_getD,
    List.getElem?_map, List.getElem?_range hi]
  rfl

/-- The other schedule words follow the recurrence (41_scheduler.md R110). -/
theorem schedule_recurrence (block : List Byte) {i : Nat} (hlo : 16 ≤ i) (hhi : i < 80) :
    (schedule block).getD i 0 =
      ssig1 ((schedule block).getD (i - 2) 0) + (schedule block).getD (i - 7) 0 +
        ssig0 ((schedule block).getD (i - 15) 0) + (schedule block).getD (i - 16) 0 := by
  have hlen := length_blockWords block
  exact extendSchedule_recurrence (by omega) (by omega) (by omega)

/-- Word `j` of a block by the indices of its bytes (40_padder.md R100). -/
theorem wordOfBlock_eq {block : List Byte} {j : Nat} (hj : 8 * j + 8 ≤ block.length) :
    wordOfBlock block j = be64 ((List.range 8).map fun k => block.getD (8 * j + k) 0) := by
  have hbytes : (block.drop (8 * j)).take 8 = (List.range 8).map fun k => block.getD (8 * j + k) 0 := by
    apply List.ext_getElem
    · rw [List.length_take, List.length_drop, List.length_map, List.length_range]
      omega
    · intro k _ hk
      rw [List.length_map, List.length_range] at hk
      rw [List.getElem_take, List.getElem_drop, List.getElem_map, List.getElem_range,
        List.getD_eq_getElem _ _ (by omega)]
  rw [wordOfBlock, hbytes]

/-- `be64` of eight indexed bytes as the sum of their places (00_scope.md R11). -/
theorem toNat_be64_range (f : Nat → Byte) :
    (be64 ((List.range 8).map f)).toNat = ((List.range 8).map fun k => (f k).toNat * 2 ^ (56 - 8 * k)).sum := by
  rw [toNat_be64 (by simp)]
  simp only [packBE, List.range_succ, List.range_zero, List.nil_append, List.map_append, List.map_singleton,
    List.foldl_append, List.foldl_cons, List.foldl_nil, List.sum_append, List.sum_singleton]
  ring

/-- Settles O43, by induction on how many words extend the block's sixteen. -/
theorem scheduleMeetsItsRecurrence : Obligations.ScheduleMeetsItsRecurrence := by
  intro block hblock w
  refine ⟨length_schedule block, fun i hi => ?_, fun i hlo hhi => ?_⟩
  · have hword : w i = be64 ((List.range 8).map fun k => block.getD (8 * i + k) 0) :=
      (getD_schedule_of_lt block hi).trans (wordOfBlock_eq (by omega))
    rw [hword, toNat_be64_range]
  · have hword : w i = ssig1 (w (i - 2)) + w (i - 7) + ssig0 (w (i - 15)) + w (i - 16) :=
      schedule_recurrence block hlo hhi
    rw [hword]
    simp only [BitVec.toNat_add, Nat.mod_add_mod]

/-! ## Runs without reset -/

/-- A run of `k + 1` steps of any machine goes on from the state after the first. -/
theorem run_succ_of_step {M : Host.Core} {s t : M.State} (h : M.step s = .next t) (k : Nat) :
    M.run (k + 1) s = M.run k t := by
  rw [Host.Core.run, h]

/-- A run of `k + 1` steps of this machine goes on from the state after the first. -/
theorem runSteps_succ {s t : State} (h : step s = .next t) (k : Nat) : runSteps (k + 1) s = runSteps k t :=
  run_succ_of_step (M := Sys2Proof.core) h k

/-- A run of no steps ends where it begins. -/
theorem runSteps_zero (s : State) : runSteps 0 s = .next s := rfl

/-- No reset in the next `n + 1` steps: none in this one, and none in the `n` after it. -/
theorem noResetFor_succ {n : Nat} {s : State} :
    NoResetFor (n + 1) s ↔ NotReset s ∧ NoResetFor n (dropPins s) := by
  unfold NoResetFor NotReset currentPins
  rw [dropPins_inputs]
  cases s.inputs <;> simp

/-- Without reset a step runs the micro-operation that `PH` names (30_encoding.md R77). -/
theorem step_of_fetchUop {s : State} {i : Instr} (hrst : NotReset s) (hi : fetchUop s = .ok i) :
    step s = exec i (dropPins s) := by
  have hfetch : fetchUop (dropPins s) = .ok i := hi
  unfold NotReset at hrst
  rw [step, stepWith, hrst, hfetch]
  rfl

/-! ## `LDW` and 64 `EXP` -/

/-- The words of `W` below index `n` are those of `Schedule(B)` (41_scheduler.md R110). -/
def ScheduledBelow (block : List Byte) (n : Nat) (w : Vector Word 80) : Prop :=
  ∀ (i : Nat) (hi : i < 80), i < n → w[i] = (schedule block).getD i 0

/-- All eighty words are the schedule. -/
theorem ScheduledBelow.toList_eq {block : List Byte} {w : Vector Word 80} (h : ScheduledBelow block 80 w) :
    w.toList = schedule block := by
  apply List.ext_getElem
  · rw [Vector.length_toList, length_schedule]
  · intro i hw hs
    rw [Vector.length_toList] at hw
    rw [Vector.getElem_toList, h i hw hw, List.getD_eq_getElem _ _ hs]

/-- `LDW` on a block in the buffer loads the first sixteen schedule words, and changes `W`, `T` and `PH` only
(41_scheduler.md R113). -/
theorem step_ldw {s : State} {block : List Byte} (hrst : NotReset s) (hph : s.ph = .ldw)
    (hblock : HoldsBlock s block) :
    ∃ w, ScheduledBelow block 16 w ∧ step s = .next { dropPins s with w := w, t := 16, ph := .exp } := by
  obtain ⟨hlen, hread⟩ := hblock
  have hbytes : ∀ a, a < 128 → (dropPins s).buf.read a = some (block.getD a 0) := fun a ha => by
    rw [dropPins_buf, hread a ha, List.getD_eq_getElem _ _ (by omega), List.getElem?_eq_getElem]
  obtain ⟨w, hload, hw⟩ := loadedSchedule_eq (fun a => block.getD a 0) (le_refl 16) hbytes
  refine ⟨w, fun i hi hlt => ?_, ?_⟩
  · rw [hw i hi, if_pos hlt, getD_schedule_of_lt block hlt, wordOfBlock_eq (by omega)]
  · have hfetch : fetchUop s = .ok .ldw := by rw [fetchUop, hph]; rfl
    rw [step_of_fetchUop hrst hfetch]
    exact orFault_eq_next.mpr ⟨w, hload, rfl⟩

/-- Writing the word that `EXP` computes extends the scheduled words by one (41_scheduler.md R114). -/
theorem ScheduledBelow.extend {block : List Byte} {w : Vector Word 80} {n : Nat} (h : ScheduledBelow block n w)
    (hlo : 16 ≤ n) (hhi : n < 80) :
    ∃ x, expandedWord w n = .ok x ∧ ScheduledBelow block (n + 1) (w.setIfInBounds n x) := by
  refine ⟨_, expandedWord_eq ⟨hlo, hhi⟩, fun i hi hlt => ?_⟩
  rw [Vector.getElem_setIfInBounds hi]
  split
  · next heq =>
    subst heq
    rw [schedule_recurrence block hlo hhi, h (n - 2) (by omega) (by omega), h (n - 7) (by omega) (by omega),
      h (n - 15) (by omega) (by omega), h (n - 16) (by omega) (by omega)]
  · exact h i hi (by omega)

/-- Below its largest value the index `T` counts without wrapping (10_state.md R32). -/
theorem toNat_add_one {t : BitVec 7} (h : t.toNat < 127) : (t + 1).toNat = t.toNat + 1 := by
  rw [BitVec.toNat_add]
  exact Nat.mod_eq_of_lt (by omega : t.toNat + 1 < 128)

/-- `EXP` with the words below `T` scheduled: one more is, and `W`, `T` and `PH` only change (41_scheduler.md R114). -/
theorem step_exp {s : State} {block : List Byte} (hrst : NotReset s) (hph : s.ph = .exp)
    (hw : ScheduledBelow block s.t.toNat s.w) (hlo : 16 ≤ s.t.toNat) (hhi : s.t.toNat < 80) :
    ∃ w, ScheduledBelow block (s.t.toNat + 1) w ∧
      step s = .next { dropPins s with w := w, t := s.t + 1, ph := if s.t + 1 = 80 then .ldv else .exp } := by
  obtain ⟨x, hx, hw'⟩ := hw.extend hlo hhi
  refine ⟨_, hw', ?_⟩
  have hfetch : fetchUop s = .ok .exp := by rw [fetchUop, hph]; rfl
  rw [step_of_fetchUop hrst hfetch, ← hph]
  exact orFault_eq_next.mpr ⟨x, hx, rfl⟩

/-- From `T = 80 - (n + 1)`, `n + 1` `EXP` complete the schedule and hand over to `LDV` (41_scheduler.md R115). -/
theorem runSteps_exp {block : List Byte} {n : Nat} {s : State} (hrst : NoResetFor (n + 1) s) (hph : s.ph = .exp)
    (hw : ScheduledBelow block s.t.toNat s.w) (hlo : 16 ≤ s.t.toNat) (ht : s.t.toNat + (n + 1) = 80) :
    ∃ w, ScheduledBelow block 80 w ∧ runSteps (n + 1) s =
      .next { s with w := w, t := 80, ph := .ldv, inputs := s.inputs.drop (n + 1) } := by
  induction n generalizing s with
  | zero =>
    obtain ⟨hnow, -⟩ := noResetFor_succ.mp hrst
    obtain ⟨w, hw', hstep⟩ := step_exp hnow hph hw hlo (by omega)
    have hlast : s.t + 1 = 80 := BitVec.eq_of_toNat_eq (by rw [toNat_add_one (by omega), ht]; rfl)
    rw [ht] at hw'
    refine ⟨w, hw', ?_⟩
    rw [runSteps_succ hstep, if_pos hlast, hlast]
    simp [runSteps_zero, dropPins]
  | succ n ih =>
    obtain ⟨hnow, hlater⟩ := noResetFor_succ.mp hrst
    obtain ⟨w, hw', hstep⟩ := step_exp hnow hph hw hlo (by omega)
    have hsucc : (s.t + 1).toNat = s.t.toNat + 1 := toNat_add_one (by omega)
    have hmore : s.t + 1 ≠ 80 := fun h => by
      have h80 : s.t.toNat + 1 = 80 := by rw [← hsucc, h]; rfl
      omega
    rw [if_neg hmore] at hstep
    rw [← hsucc] at hw'
    obtain ⟨w', hw'', hrun⟩ := ih (s := { dropPins s with w := w, t := s.t + 1, ph := .exp }) hlater rfl hw'
      (by simp only [hsucc]; omega) (by simp only [hsucc]; omega)
    refine ⟨w', hw'', ?_⟩
    rw [runSteps_succ hstep, hrun]
    simp [dropPins]

/-- `LDW` and 64 `EXP` leave `Schedule(B)` in `W`, and change `W`, `T` and `PH` only (41_scheduler.md R115). -/
theorem runSteps_schedule {s : State} {block : List Byte} (hrst : NoResetFor 65 s) (hph : s.ph = .ldw)
    (hblock : HoldsBlock s block) :
    ∃ w : Vector Word 80, w.toList = schedule block ∧
      runSteps 65 s = .next { s with w := w, t := 80, ph := .ldv, inputs := s.inputs.drop 65 } := by
  obtain ⟨hnow, hlater⟩ := noResetFor_succ.mp hrst
  obtain ⟨w₁₆, hw₁₆, hstep⟩ := step_ldw hnow hph hblock
  have ht : (16 : BitVec 7).toNat + (63 + 1) = 80 := rfl
  obtain ⟨w, hw, hrun⟩ := runSteps_exp (s := { dropPins s with w := w₁₆, t := 16, ph := .exp }) hlater rfl hw₁₆
    (le_refl 16) ht
  refine ⟨w, hw.toList_eq, ?_⟩
  rw [runSteps_succ hstep, hrun]
  simp [dropPins]

/-- Settles O36, by the run of `LDW` and the 64 `EXP` with the words below `T` scheduled. -/
theorem scheduleAfterExpansion : Obligations.ScheduleAfterExpansion := by
  intro s block hph hblock hrst
  obtain ⟨w, hw, hrun⟩ := runSteps_schedule hrst hph hblock
  exact ⟨_, hrun, hw, rfl, rfl⟩

end Sys2Proof.Machine
end

section
/-! PROOFS. The Compressor (42_compressor.md): the steps `LDV`, `RND` and `ADD` (R134 to R136), the run of 80 rounds, and
the 147 micro-operations of a block (R137). -/

namespace Sys2Proof.Machine

open Sys2Proof Sys2Proof.Safety

/-! ## Runs in parts -/

/-- A run of `m + n` steps of any machine goes on from the state after the first `m`. -/
theorem run_add_of_run {M : Host.Core} {m : Nat} {s t : M.State} (h : M.run m s = .next t) (n : Nat) :
    M.run (m + n) s = M.run n t := by
  induction m generalizing s with
  | zero =>
    cases h
    rw [Nat.zero_add]
  | succ m ih =>
    rw [Host.Core.run] at h
    cases hstep : M.step s with
    | next u =>
      rw [hstep] at h
      rw [Nat.succ_add, run_succ_of_step hstep, ih h]
    | fault _ | refused _ =>
      rw [hstep] at h
      cases h

/-- A run of `m + n` steps of this machine goes on from the state after the first `m`. -/
theorem runSteps_add {m : Nat} {s t : State} (h : runSteps m s = .next t) (n : Nat) :
    runSteps (m + n) s = runSteps n t :=
  run_add_of_run (M := Sys2Proof.core) h n

/-- A run of one step is the step. -/
theorem runSteps_one {s t : State} (h : step s = .next t) : runSteps 1 s = .next t := by
  rw [runSteps_succ h, runSteps_zero]

/-- No reset in a run is no reset in its first part. -/
theorem noResetFor_mono {m n : Nat} {s : State} (h : NoResetFor n s) (hmn : m ≤ n) : NoResetFor m s :=
  fun p hp => h p (List.take_subset_take_left _ hmn hp)

/-- No reset in a run is no reset in its last part, which reads the samples that the first part leaves. -/
theorem noResetFor_drop {m n : Nat} {s t : State} (h : NoResetFor (m + n) s) (ht : t.inputs = s.inputs.drop m) :
    NoResetFor n t := by
  intro p hp
  rw [ht, List.take_drop] at hp
  exact h p (List.mem_of_mem_drop hp)

/-- No reset in a run of one step is no reset in the step. -/
theorem noResetFor_one {s : State} (h : NoResetFor 1 s) : NotReset s := (noResetFor_succ.mp h).left

/-! ## `LDV`, `RND` and `ADD` -/

/-- `LDV` copies the hash state into the working state (42_compressor.md R134). -/
theorem step_ldv {s : State} (hrst : NotReset s) (hph : s.ph = .ldv) :
    step s = .next { dropPins s with v := s.h, t := 0, ph := .rnd } := by
  have hfetch : fetchUop s = .ok .ldv := by rw [fetchUop, hph]; rfl
  rw [step_of_fetchUop hrst hfetch]
  rfl

/-- `RND` with `T` in range is `Round(V, K[T], W[T])` (42_compressor.md R135). -/
theorem step_rnd {s : State} (hrst : NotReset s) (hph : s.ph = .rnd) (hlt : s.t.toNat < 80) :
    step s = .next { dropPins s with
      v := roundStep s.v (roundConstant s.t.toNat) s.w[s.t.toNat]
      t := s.t + 1
      ph := if s.t + 1 = 80 then .add else .rnd } := by
  have hfetch : fetchUop s = .ok .rnd := by rw [fetchUop, hph]; rfl
  rw [step_of_fetchUop hrst hfetch, ← hph]
  exact orFault_eq_next.mpr ⟨_, roundOperands_eq hlt, rfl⟩

/-- `ADD` adds the working state into the hash state and leaves the block (42_compressor.md R136). -/
theorem step_add {s : State} (hrst : NotReset s) (hph : s.ph = .add) :
    step s = .next { dropPins s with h := addBack s.h s.v, cnt := 0, t := 0, ph := afterBlock s.finf s.lw } := by
  have hfetch : fetchUop s = .ok .add := by rw [fetchUop, hph]; rfl
  rw [step_of_fetchUop hrst hfetch]
  rfl

/-- The three ways out of a block (42_compressor.md R136, R138). -/
theorem afterBlock_eq (finf lw : Bool) :
    afterBlock finf lw = if finf = false then .idle else if lw = false then .pz else .fin := by
  cases finf <;> cases lw <;> rfl

/-! ## `LDV` and 80 `RND` -/

/-- The state after `LDV` and `n` rounds from `s`: `v(n)` of 42_compressor.md R130 in `V`, over the words of `W`. -/
def afterRounds (n : Nat) (s : State) : State :=
  { s with
    v := roundsFrom s.h s.w.toList n
    t := BitVec.ofNat 7 n
    ph := if n = 80 then .add else .rnd
    inputs := s.inputs.drop (n + 1) }

/-- One more round takes `v(n)` to `v(n + 1)` (42_compressor.md R130, R135). -/
theorem step_afterRounds {n : Nat} {s : State} (hrst : NotReset (afterRounds n s)) (hn : n < 80) :
    step (afterRounds n s) = .next (afterRounds (n + 1) s) := by
  have ht : (afterRounds n s).t.toNat = n := by
    rw [afterRounds, BitVec.toNat_ofNat]
    omega
  have hsucc : (afterRounds n s).t + 1 = BitVec.ofNat 7 (n + 1) := (BitVec.ofNat_add n 1).symm
  have hlast : BitVec.ofNat 7 (n + 1) = 80 ↔ n + 1 = 80 := by
    rw [← BitVec.toNat_inj, BitVec.toNat_ofNat, Nat.mod_eq_of_lt (by omega)]
    rfl
  have hword : s.w[n] = s.w.toList.getD n 0 := by
    rw [List.getD_eq_getElem _ _ (by simpa using hn), Vector.getElem_toList]
  rw [step_rnd hrst (if_neg hn.ne) (by omega)]
  simp only [hsucc, hlast, ht]
  simp [afterRounds, dropPins, roundsFrom, hword]

/-- `LDV` and `n` rounds compute `v(n)`, and change `V`, `T` and `PH` only (42_compressor.md R130, R134, R135). -/
theorem runSteps_rounds {n : Nat} {s : State} (hrst : NoResetFor (1 + n) s) (hph : s.ph = .ldv) (hn : n ≤ 80) :
    runSteps (1 + n) s = .next (afterRounds n s) := by
  induction n with
  | zero =>
    rw [runSteps_one (step_ldv (noResetFor_one hrst) hph)]
    simp [afterRounds, dropPins, roundsFrom]
  | succ n ih =>
    have hprev : runSteps (1 + n) s = .next (afterRounds n s) := ih (noResetFor_mono hrst (by omega)) (by omega)
    have hnow : NotReset (afterRounds n s) :=
      noResetFor_one (noResetFor_drop hrst (m := 1 + n) (by rw [afterRounds, Nat.add_comm]))
    rw [← Nat.add_assoc, runSteps_add hprev, runSteps_one (step_afterRounds hnow hn)]

/-! ## One block -/

/-- `LDV`, 80 rounds and `ADD` with `Schedule(B)` in `W` compress the block into `H` (42_compressor.md R130). -/
theorem runSteps_compressor {s : State} {block : List Byte} (hrst : NoResetFor 82 s) (hph : s.ph = .ldv)
    (hw : s.w.toList = schedule block) :
    ∃ v : Vector Word 8, runSteps 82 s = .next { s with
      h := compress s.h block, v := v, cnt := 0, t := 0, ph := afterBlock s.finf s.lw
      inputs := s.inputs.drop 82 } := by
  have hrounds : runSteps 81 s = .next (afterRounds 80 s) :=
    runSteps_rounds (n := 80) (noResetFor_mono hrst (by decide)) hph (le_refl 80)
  have hnow : NotReset (afterRounds 80 s) := noResetFor_one (noResetFor_drop hrst (m := 81) rfl)
  refine ⟨roundsFrom s.h (schedule block) 80, ?_⟩
  rw [runSteps_add (m := 81) hrounds 1, runSteps_one (step_add hnow rfl)]
  simp [afterRounds, dropPins, compress, hw]

/-- The 147 micro-operations of a block end with `H = Compress(H0, B)`, and change `W`, `V`, `H`, `T`, `CNT` and `PH` only
(42_compressor.md R137). -/
theorem runSteps_block {s : State} {block : List Byte} (hrst : NoResetFor 147 s) (hph : s.ph = .ldw)
    (hblock : HoldsBlock s block) :
    ∃ (v : Vector Word 8) (w : Vector Word 80), runSteps 147 s = .next { s with
      h := compress s.h block, v := v, w := w, cnt := 0, t := 0, ph := afterBlock s.finf s.lw
      inputs := s.inputs.drop 147 } := by
  obtain ⟨w, hw, hschedule⟩ := runSteps_schedule (noResetFor_mono hrst (by decide)) hph hblock
  obtain ⟨v, hcompress⟩ := runSteps_compressor (block := block)
    (s := { s with w := w, t := 80, ph := .ldv, inputs := s.inputs.drop 65 })
    (noResetFor_drop hrst (m := 65) rfl) rfl hw
  refine ⟨v, w, ?_⟩
  rw [runSteps_add (m := 65) hschedule 82, hcompress]
  simp

/-- Settles O37, by the run of the Scheduler, then of the 80 rounds, then of `ADD`. -/
theorem blockCompressesHash : Obligations.BlockCompressesHash := by
  intro s block hph hblock hrst
  obtain ⟨v, w, hrun⟩ := runSteps_block hrst hph hblock
  exact ⟨_, hrun, rfl, rfl, rfl, afterBlock_eq s.finf s.lw, rfl, rfl, rfl, rfl, rfl, rfl, rfl, rfl, rfl, rfl⟩

end Sys2Proof.Machine
end

section
/-! PROOFS. The Digest Finalizer (43_finalizer.md): the lengths and the bytes of `Serialize` and `Finalize` (R150). -/

namespace Sys2Proof.Machine

open Sys2Proof

/-- Each of the eight words gives eight bytes (43_finalizer.md R150). -/
@[simp] theorem length_serialize (h : Vector Word 8) : (serialize h).length = 64 := by
  simp [serialize, List.length_flatMap]

/-- The cut is never longer than what it cuts (00_scope.md R5). -/
@[simp] theorem length_finalize (alg : Alg) (h : Vector Word 8) : (finalize alg h).length = dlen alg := by
  rw [finalize, List.length_take, length_serialize, Nat.min_eq_left (dlen_le alg)]

/-- The digest's length is that of its algorithm, for all messages (44_variants_constants.md R166). -/
@[simp] theorem length_hash (alg : Alg) (m : List Byte) : (hash alg m).length = dlen alg := length_finalize alg _

/-- `byte_k` as a number: the word shifted down and cut to eight bits (00_scope.md R11). -/
theorem byteK_eq_ofNat (k : Nat) (x : Word) : byteK k x = BitVec.ofNat 8 (x.toNat / 2 ^ (56 - 8 * k) % 256) := by
  rw [← toNat_byteK, BitVec.ofNat_toNat, BitVec.setWidth_eq]

/-- Byte `k` of word `j` stands at index `8j + k` (43_finalizer.md R150). -/
theorem getElem?_serialize_word (h : Vector Word 8) (j : Fin 8) {k : Nat} (hk : k < 8) :
    (serialize h)[8 * j.val + k]? = some (byteK k h[j]) := by
  have hmod : (8 * j.val + k) % 8 = k := by omega
  have hdiv : (8 * j.val + k) / 8 = j.val := by omega
  rw [getElem?_serialize h (by omega)]
  simp only [hmod, hdiv, Fin.getElem_fin]

/-- `DLEN(SHA-512)` is the whole of `Serialize(H)`, so nothing is cut (43_finalizer.md R150). -/
theorem finalize_sha512 (h : Vector Word 8) : finalize .sha512 h = serialize h :=
  List.take_of_length_le (length_serialize h).le

/-- Settles O44, by the length of `Serialize(H)` and the place of each word's bytes in it. -/
theorem finalizeSerialisesAndCuts : Obligations.FinalizeSerialisesAndCuts := by
  intro h m
  refine ⟨length_serialize h, fun j k hk => ?_, finalize_sha512 h, rfl, length_hash .sha512 m, length_hash .sha384 m⟩
  rw [getElem?_serialize_word h j hk, byteK_eq_ofNat]

end Sys2Proof.Machine
end

section
/-! PROOFS. The host that waits for `CMD_READY` (70_reset_and_hazards.md R240) against runs of the machine with quiet ports,
and the responses that a sequence of host acts returns. -/

namespace Sys2Proof.Machine

open Sys2Proof Sys2Proof.Safety

/-! ## Runs with quiet ports -/

/-- With quiet ports no reset comes. -/
theorem noResetFor_of_quiet {s : State} (hq : s.inputs = []) (n : Nat) : NoResetFor n s := by
  simp [NoResetFor, hq]

/-- With quiet ports this step is no reset. -/
theorem notReset_of_quiet {s : State} (hq : s.inputs = []) : NotReset s := noResetFor_one (noResetFor_of_quiet hq 1)

/-- Quiet ports have no sample to drop. -/
theorem dropPins_of_quiet {s : State} (hq : s.inputs = []) : dropPins s = s := by
  rw [dropPins, hq, List.tail_nil, ← hq]

/-- With quiet ports a busy core runs the micro-operation that `PH` names. -/
theorem step_of_quiet {s : State} {i : Instr} (hq : s.inputs = []) (hi : fetchUop s = .ok i) : step s = exec i s := by
  rw [step_of_fetchUop (notReset_of_quiet hq) hi, dropPins_of_quiet hq]

/-- A ready core with quiet ports keeps all its state (60_exceptions.md R212). -/
theorem step_idle_of_quiet {s : State} (hq : s.inputs = []) (hidle : s.ph = .idle) : step s = .next s := by
  obtain ⟨e, he⟩ := (fetchUop_eq_error s).mpr hidle
  rw [step, dropPins_of_quiet hq, currentPins, hq]
  simp [stepWith, he]

/-- No micro-operation touches the coming port samples. -/
theorem uop_keeps_inputs {s t : State} {i : Instr} (hi : fetchUop s = .ok i) (h : exec i s = .next t) :
    t.inputs = s.inputs := by
  unfold fetchUop at hi
  cases hph : s.ph <;> rw [hph] at hi <;> cases hi
  case p80 =>
    obtain ⟨s', hs', hk⟩ := orFault_eq_next.mp h
    obtain ⟨-, rfl⟩ := appendByte_eq_ok.mp hs'
    cases hk
    rfl
  case pz =>
    simp only [exec, execPz, zeroFill_buf] at h
    split at h <;> cases h <;> rfl
  case plen =>
    simp only [exec, execPlen, memWrite_buf] at h
    cases h
    rfl
  case ldw | exp | rnd =>
    obtain ⟨_, -, hk⟩ := orFault_eq_next.mp h
    cases hk
    rfl
  case ldv | add | fin =>
    cases h
    rfl

/-- Quiet ports stay quiet. -/
theorem step_keeps_quiet {s t : State} (hq : s.inputs = []) (h : step s = .next t) : t.inputs = [] := by
  cases hi : fetchUop s with
  | ok i =>
    rw [step_of_quiet hq hi] at h
    rw [uop_keeps_inputs hi h, hq]
  | error e =>
    rw [step_idle_of_quiet hq ((fetchUop_eq_error s).mp ⟨e, hi⟩)] at h
    cases h
    exact hq

/-- A run of `k + 1` steps of any machine that answers has a first step that does. -/
theorem run_succ_eq_next {M : Host.Core} {k : Nat} {s u : M.State} (h : M.run (k + 1) s = .next u) :
    ∃ t, M.step s = .next t ∧ M.run k t = .next u := by
  rw [Host.Core.run] at h
  cases hstep : M.step s with
  | next t =>
    rw [hstep] at h
    exact ⟨t, rfl, h⟩
  | fault _ | refused _ =>
    rw [hstep] at h
    cases h

/-- A run of `k + 1` steps of this machine that answers has a first step that does. -/
theorem runSteps_succ_eq_next {k : Nat} {s u : State} (h : runSteps (k + 1) s = .next u) :
    ∃ t, step s = .next t ∧ runSteps k t = .next u :=
  run_succ_eq_next (M := Sys2Proof.core) h

/-- Waiting for `CMD_READY` ends where a quiet run reaches a ready core: the wait stops earlier if the core is ready earlier,
and then the rest of the run keeps it there. -/
theorem settle_of_runSteps {k n : Nat} {s t : State} (hq : s.inputs = []) (hrun : runSteps k s = .next t)
    (hidle : t.ph = .idle) (hk : k ≤ n) : settle n s = .next t := by
  induction k generalizing n s with
  | zero =>
    cases hrun
    cases n with
    | zero => rfl
    | succ n => rw [settle, if_pos ((cmdReady_iff _).mpr hidle)]
  | succ k ih =>
    obtain ⟨u, hstep, hrest⟩ := runSteps_succ_eq_next hrun
    by_cases hready : s.ph = .idle
    · cases (step_idle_of_quiet hq hready).symm.trans hstep
      exact ih hq hrest (by omega)
    · obtain ⟨n, rfl⟩ : ∃ m, n = m + 1 := ⟨n - 1, by omega⟩
      have hquiet : { s with inputs := [] } = s := by rw [← hq]
      rw [settle, if_neg (mt (cmdReady_iff s).mp hready), hquiet, hstep]
      exact ih (step_keeps_quiet hq hstep) hrest (by omega)

/-- From `s`, `k` steps reach a state with the property `P`. -/
def RunsTo (k : Nat) (s : State) (P : State → Prop) : Prop := ∃ t, runSteps k s = .next t ∧ P t

/-- One step reaches what holds of the state it answers. -/
theorem RunsTo.of_step {s t : State} {P : State → Prop} (h : step s = .next t) (ht : P t) : RunsTo 1 s P :=
  ⟨t, runSteps_one h, ht⟩

/-- Two runs in sequence. -/
theorem RunsTo.trans {m n : Nat} {s : State} {P Q : State → Prop} (h : RunsTo m s P)
    (hnext : ∀ t, P t → RunsTo n t Q) : RunsTo (m + n) s Q := by
  obtain ⟨t, hm, ht⟩ := h
  obtain ⟨u, hn, hu⟩ := hnext t ht
  exact ⟨u, by rw [runSteps_add hm, hn], hu⟩

/-! ## One host act -/

/-- The host presents a word to a ready core: the core accepts it, and then the host waits while the micro-operations it owes
are run (45_commands.md R170, 70_reset_and_hazards.md R240). -/
theorem perform_word_of_runsTo {cmd : BitVec 16} {s t : State} {k : Nat} {P : State → Prop} (hidle : s.ph = .idle)
    (haccept : acceptWord cmd { s with inputs := [] } = .next t) (hq : t.inputs = []) (hrun : RunsTo k t P)
    (hP : ∀ u, P u → u.ph = .idle) (hk : k ≤ settleBound) : ∃ u, perform (.word cmd) s = .next u ∧ P u := by
  obtain ⟨u, hsteps, hu⟩ := hrun
  have hstep : step { s with inputs := [actPins (.word cmd)] } = .next t := by
    rw [← haccept]
    exact stepWith_eq_acceptWord (p := presenting cmd) rfl rfl hidle
  refine ⟨u, ?_, hu⟩
  rw [perform, hstep]
  exact settle_of_runSteps hq hsteps (hP u hu) hk

/-- The host presents a word that owes no micro-operation. -/
theorem perform_word_of_idle {cmd : BitVec 16} {s t : State} (hidle : s.ph = .idle)
    (haccept : acceptWord cmd { s with inputs := [] } = .next t) (hq : t.inputs = []) (ht : t.ph = .idle) :
    perform (.word cmd) s = .next t := by
  obtain ⟨u, hu, rfl⟩ := perform_word_of_runsTo (k := 0) (P := (t = ·)) hidle haccept hq ⟨t, runSteps_zero t, rfl⟩
    (fun _ h => h ▸ ht) (Nat.zero_le _)
  exact hu

/-- Accepting a word that decodes is performing its instruction (30_encoding.md R76). -/
theorem acceptWord_of_decode {cmd : BitVec 16} {i : Instr} (h : decodeCommand cmd = .ok i) (s : State) :
    acceptWord cmd s = exec i s := by
  rw [acceptWord, h]

/-! ## Several host acts -/

/-- The acts lead from `s` to `t` and return the bytes `out`. -/
def Performs (acts : List HostAct) (s : State) (out : List Byte) (t : State) : Prop :=
  performAll acts s = .next t ∧ responses acts s = out

/-- No act returns nothing. -/
theorem Performs.nil (s : State) : Performs [] s [] s := ⟨rfl, rfl⟩

/-- An act returns the response byte it leaves on show (10_state.md R39). -/
theorem Performs.cons {a : HostAct} {acts : List HostAct} {s t u : State} {out : List Byte}
    (ha : perform a s = .next t) (h : Performs acts t out u) :
    Performs (a :: acts) s (if t.rspv then t.rspd :: out else out) u := by
  obtain ⟨hall, hout⟩ := h
  exact ⟨by rw [performAll, ha]; exact hall, by rw [responses, ha, ← hout]⟩

/-- An act that leaves no response on show returns nothing. -/
theorem Performs.cons_silent {a : HostAct} {acts : List HostAct} {s t u : State} {out : List Byte}
    (ha : perform a s = .next t) (hrsp : t.rspv = false) (h : Performs acts t out u) :
    Performs (a :: acts) s out u := by
  have hcons := Performs.cons ha h
  rwa [hrsp] at hcons

/-- An act that leaves a response on show returns it. -/
theorem Performs.cons_response {a : HostAct} {acts : List HostAct} {s t u : State} {out : List Byte}
    (ha : perform a s = .next t) (hrsp : t.rspv = true) (h : Performs acts t out u) :
    Performs (a :: acts) s (t.rspd :: out) u := by
  have hcons := Performs.cons ha h
  rwa [hrsp] at hcons

/-- Two sequences of acts, one after the other. -/
theorem Performs.append {as bs : List HostAct} {s t u : State} {out out' : List Byte} (ha : Performs as s out t)
    (hb : Performs bs t out' u) : Performs (as ++ bs) s (out ++ out') u := by
  induction as generalizing s out with
  | nil =>
    obtain ⟨hall, rfl⟩ := ha
    cases hall
    exact hb
  | cons a as ih =>
    obtain ⟨hall, rfl⟩ := ha
    rw [performAll] at hall
    cases hperform : perform a s with
    | next v =>
      rw [hperform] at hall
      have hcons := Performs.cons hperform (ih ⟨hall, rfl⟩)
      rw [responses, hperform]
      by_cases hrsp : v.rspv = true <;> simpa [hrsp] using hcons
    | fault f | refused r =>
      rw [hperform] at hall
      cases hall

end Sys2Proof.Machine
end

section
/-! PROOFS. The message through the machine: the byte string that the Padder appends to (40_padder.md R90 to R97), block by
block through the Compressor, to the digest register (43_finalizer.md R151). -/

namespace Sys2Proof.Machine

open Sys2Proof Sys2Proof.Safety

/-! ## Compressing a byte string block by block -/

/-- The hash state after the whole blocks of a byte string (44_variants_constants.md R164, before `Finalize`). -/
def chain (alg : Alg) (bytes : List Byte) : Vector Word 8 :=
  ((List.range (bytes.length / 128)).map fun k => (bytes.drop (128 * k)).take 128).foldl compress (iv alg)

/-- `Hash(alg, m)` is the finalized chain of the padded message (44_variants_constants.md R164). -/
theorem hash_eq_finalize_chain (alg : Alg) (m : List Byte) : hash alg m = finalize alg (chain alg (pad m)) := rfl

/-- One more block is one more `Compress`. -/
theorem chain_append_block (alg : Alg) {bytes block : List Byte} (hbytes : 128 ∣ bytes.length)
    (hblock : block.length = 128) : chain alg (bytes ++ block) = compress (chain alg bytes) block := by
  obtain ⟨q, hq⟩ := hbytes
  have hold : ∀ k ∈ List.range q,
      ((bytes ++ block).drop (128 * k)).take 128 = (bytes.drop (128 * k)).take 128 := fun k hk => by
    have hlt := List.mem_range.mp hk
    rw [List.drop_append_of_le_length (by omega), List.take_append_of_le_length (by rw [List.length_drop]; omega)]
  have hnew : ((bytes ++ block).drop (128 * q)).take 128 = block := by
    rw [← hq, List.drop_left, List.take_of_length_le hblock.le]
  have hcount : (bytes ++ block).length / 128 = q + 1 := by rw [List.length_append]; omega
  have hcount' : bytes.length / 128 = q := by omega
  rw [chain, chain, hcount, hcount', List.range_succ, List.map_append, List.map_congr_left hold, List.foldl_append,
    List.map_singleton, hnew]
  rfl

/-- The zero bytes between the marker and the length field fill the last block or, where it has no room for the length,
the one after it (40_padder.md R91). -/
theorem zeroBytes_eq (l : Nat) : zeroBytes l = if l % 128 ≤ 111 then 111 - l % 128 else 239 - l % 128 := by
  unfold zeroBytes kpad
  split <;> omega

/-! ## Extending the buffered bytes -/

/-- A byte written at the end of the buffered bytes extends them by one. -/
theorem read_write_append_singleton {m : Memory} {tail : List Byte} (hm : ∀ a, a < tail.length → m.read a = tail[a]?)
    (b : Byte) {a : Nat} (ha : a < (tail ++ [b]).length) : (m.write tail.length b).read a = (tail ++ [b])[a]? := by
  rw [List.length_append, List.length_singleton] at ha
  rw [Memory.read_write]
  split
  · next heq => rw [heq, List.getElem?_concat_length]
  · rw [hm a (by omega), List.getElem?_append_left (by omega)]

/-- A zero fill from the end of the buffered bytes extends them by zeros. -/
theorem read_zeroRange_append_replicate {m : Memory} {tail : List Byte} {hi : Nat}
    (hm : ∀ a, a < tail.length → m.read a = tail[a]?) {a : Nat}
    (ha : a < (tail ++ List.replicate (hi - tail.length) 0x00#8).length) :
    (m.zeroRange tail.length hi).read a = (tail ++ List.replicate (hi - tail.length) 0x00#8)[a]? := by
  rw [List.length_append, List.length_replicate] at ha
  rw [Memory.read_zeroRange]
  split
  · rw [List.getElem?_append_right (by omega), List.getElem?_replicate, if_pos (by omega)]
  · rw [hm a (by omega), List.getElem?_append_left (by omega)]

/-- The length field written at the end of the buffered bytes extends them by `be128` (00_scope.md R11). -/
theorem read_writeBE_append_be128 {m : Memory} {tail : List Byte} (hm : ∀ a, a < tail.length → m.read a = tail[a]?)
    (v : Nat) {a : Nat} (ha : a < (tail ++ be128 v).length) :
    (m.writeBE tail.length 16 v).read a = (tail ++ be128 v)[a]? := by
  rw [List.length_append, length_be128] at ha
  rw [Memory.read_writeBE]
  split
  · rw [List.getElem?_append_right (by omega), be128, List.getElem?_map, List.getElem?_range (by omega)]
    rfl
  · rw [hm a (by omega), List.getElem?_append_left (by omega)]

/-! ## The state of an open session -/

/-- In an open session of `alg` with `l` message bytes absorbed, the core has taken in the byte string `done ++ tail`:
`done`, whole blocks, is compressed into `H`, and `tail` stands in the buffer. The sequencer is at `ph` with the flags
`finf` and `lw`; the ports are quiet and no response is shown. -/
structure Stage (alg : Alg) (l : Nat) (done tail : List Byte) (ph : Phase) (finf lw : Bool) (s : State) : Prop where
  quiet : s.inputs = []
  st : s.st = .absorb
  err : s.err = .none
  rspv : s.rspv = false
  len : s.len.toNat = 8 * l
  h : s.h = chain alg done
  whole : 128 ∣ done.length
  cnt : s.cnt.toNat = tail.length
  buf : ∀ a, a < tail.length → s.buf.read a = tail[a]?
  ph : s.ph = ph
  finf : s.finf = finf
  lw : s.lw = lw
  alg : s.alg = alg

/-- The session is closed with `l` message bytes absorbed, and the digest register holds the digest of the padded byte
string `bytes`. -/
structure SessionClosed (alg : Alg) (l : Nat) (bytes : List Byte) (s : State) : Prop where
  st : s.st = .done
  err : s.err = .none
  ph : s.ph = .idle
  cnt : s.cnt = 0
  len : s.len.toNat = 8 * l
  dg : ∀ n, n < dlen alg → s.dg.read n = (finalize alg (chain alg bytes))[n]?
  alg : s.alg = alg

section
variable {alg : Alg} {l : Nat} {done tail : List Byte} {s : State} {finf lw : Bool} {ph : Phase}

/-- The ports of the core are quiet already. -/
theorem Stage.inputs_eq (h : Stage alg l done tail ph finf lw s) : { s with inputs := [] } = s := by
  rw [← h.quiet]

/-- A phase's micro-operation is what the next step runs. -/
theorem Stage.step_eq {i : Instr} (h : Stage alg l done tail ph finf lw s) (hi : decodeUop ph.code = .ok i) :
    step s = exec i s :=
  step_of_quiet h.quiet (by rw [fetchUop, h.ph, hi])

/-- Below 128 bytes `CNT` counts one more without wrapping (10_state.md R31). -/
theorem Stage.cnt_add_one (h : Stage alg l done tail ph finf lw s) (b : Byte) (hlen : tail.length < 128) :
    (s.cnt + 1).toNat = (tail ++ [b]).length := by
  rw [BitVec.toNat_add, h.cnt, List.length_append]
  exact Nat.mod_eq_of_lt (by omega : tail.length + 1 < 256)

/-! ## The micro-operations of the Padder and the Finalizer -/

/-- `P80` appends the pad marker (40_padder.md R94). -/
theorem Stage.p80 (h : Stage alg l done tail .p80 finf lw s) (hlen : tail.length < 128) :
    RunsTo 1 s (Stage alg l done (tail ++ [0x80#8]) .pz finf lw) := by
  have hcnt : s.cnt.toNat < 128 := by rw [h.cnt]; exact hlen
  have hstep : step s = .next { s with buf := s.buf.write s.cnt.toNat 0x80#8, cnt := s.cnt + 1, ph := .pz } := by
    rw [h.step_eq (i := .p80) rfl]
    exact orFault_eq_next.mpr ⟨_, appendByte_eq_ok.mpr ⟨hcnt, rfl⟩, rfl⟩
  refine .of_step hstep { h with cnt := h.cnt_add_one _ hlen, buf := fun a ha => ?_, ph := rfl }
  rw [h.cnt]
  exact read_write_append_singleton h.buf _ ha

/-- `PZ` with room for the length field fills with zeros up to it (40_padder.md R95). -/
theorem Stage.pz_of_le (h : Stage alg l done tail .pz finf lw s) (hlen : tail.length ≤ 112) :
    RunsTo 1 s (Stage alg l done (tail ++ List.replicate (112 - tail.length) 0x00#8) .plen finf lw) := by
  have hstep : step s = .next { s with buf := s.buf.zeroRange s.cnt.toNat 112, cnt := 112, ph := .plen } := by
    rw [h.step_eq (i := .pz) rfl, exec, execPz, zeroFill_buf, if_pos (by rw [h.cnt]; exact hlen)]
  refine .of_step hstep { h with cnt := ?_, buf := fun a ha => ?_, ph := rfl }
  · rw [List.length_append, List.length_replicate, Nat.add_sub_of_le hlen]
    rfl
  · rw [h.cnt]
    exact read_zeroRange_append_replicate h.buf ha

/-- `PZ` without room for the length field fills the block with zeros (40_padder.md R95). -/
theorem Stage.pz_of_gt (h : Stage alg l done tail .pz finf lw s) (hlo : 112 < tail.length) (hhi : tail.length ≤ 128) :
    RunsTo 1 s (Stage alg l done (tail ++ List.replicate (128 - tail.length) 0x00#8) .ldw finf lw) := by
  have hstep : step s = .next { s with buf := s.buf.zeroRange s.cnt.toNat 128, cnt := 128, ph := .ldw } := by
    rw [h.step_eq (i := .pz) rfl, exec, execPz, zeroFill_buf, zeroFill_buf, if_neg (by rw [h.cnt]; omega)]
  refine .of_step hstep { h with cnt := ?_, buf := fun a ha => ?_, ph := rfl }
  · rw [List.length_append, List.length_replicate, Nat.add_sub_of_le hhi]
    rfl
  · rw [h.cnt]
    exact read_zeroRange_append_replicate h.buf ha

/-- `PLEN` appends the length field (40_padder.md R96). -/
theorem Stage.plen (h : Stage alg l done tail .plen finf lw s) (hlen : tail.length = 112) :
    RunsTo 1 s (Stage alg l done (tail ++ be128 (8 * l)) .ldw finf true) := by
  have hfield : (lengthField s.len).toNat = 8 * l := by
    have hlt : s.len.toNat < 18446744073709551616 := s.len.isLt
    rw [lengthField, BitVec.toNat_setWidth, Nat.mod_eq_of_lt (by omega), h.len]
  have hstep : step s = .next
      { s with buf := s.buf.writeBE tail.length 16 (8 * l), cnt := 128, lw := true, ph := .ldw } := by
    rw [h.step_eq (i := .plen) rfl, exec, execPlen, memWrite_buf, hfield, hlen]
  refine .of_step hstep { h with cnt := ?_, buf := fun a ha => ?_, ph := rfl, lw := rfl }
  · rw [List.length_append, length_be128, hlen]
    rfl
  · dsimp only
    exact read_writeBE_append_be128 h.buf (8 * l) ha

/-- The 147 micro-operations of a block compress the full buffer into `H` and empty it (42_compressor.md R137). -/
theorem Stage.block (h : Stage alg l done tail .ldw finf lw s) (hlen : tail.length = 128) :
    RunsTo 147 s (Stage alg l (done ++ tail) [] (afterBlock finf lw) finf lw) := by
  have hholds : HoldsBlock s tail := ⟨hlen, fun a ha => h.buf a (by omega)⟩
  obtain ⟨v, w, hrun⟩ := runSteps_block (noResetFor_of_quiet h.quiet 147) h.ph hholds
  refine ⟨_, hrun, { h with quiet := ?_, h := ?_, whole := ?_, cnt := rfl, buf := ?_, ph := ?_ }⟩
  · simp [h.quiet]
  · rw [chain_append_block alg h.whole hlen, ← h.h]
  · rw [List.length_append, hlen]
    exact Dvd.dvd.add h.whole (dvd_refl 128)
  · exact fun a ha => absurd ha (Nat.not_lt_zero a)
  · rw [h.finf, h.lw]

/-- `FIN` closes the session with the digest in the digest register (43_finalizer.md R151). -/
theorem Stage.fin (h : Stage alg l done [] .fin finf lw s) :
    RunsTo 1 s fun t => SessionClosed alg l done t ∧ t.rspv = false := by
  have hstep : step s = .next
      { s with dg := loadedDigest s.alg s.h s.dg, st := .done, finf := false, lw := false, ph := .idle } := by
    rw [h.step_eq (i := .fin) rfl]
    rfl
  have hdg : ∀ n, n < dlen alg → (loadedDigest s.alg s.h s.dg).read n = (finalize alg (chain alg done))[n]? := by
    rw [h.alg, h.h]
    exact fun n hn => read_loadedDigest_eq_finalize alg _ s.dg hn
  exact .of_step hstep ⟨⟨rfl, h.err, rfl, BitVec.eq_of_toNat_eq h.cnt, h.len, hdg, h.alg⟩, h.rspv⟩

/-! ## From the pad marker to the digest -/

/-- With room for the length field: zeros, the length, the last block and `FIN` (40_padder.md R97). -/
theorem Stage.finish_of_le (h : Stage alg l done tail .pz true false s) (hlen : tail.length ≤ 112) :
    RunsTo 150 s fun t =>
      SessionClosed alg l (done ++ (tail ++ List.replicate (112 - tail.length) 0x00#8 ++ be128 (8 * l))) t ∧
        t.rspv = false := by
  have hzeros : (tail ++ List.replicate (112 - tail.length) 0x00#8).length = 112 := by
    rw [List.length_append, List.length_replicate]
    omega
  have hfull : (tail ++ List.replicate (112 - tail.length) 0x00#8 ++ be128 (8 * l)).length = 128 := by
    rw [List.length_append, hzeros, length_be128]
  exact (h.pz_of_le hlen).trans (n := 149) fun _ h₁ => (h₁.plen hzeros).trans (n := 148) fun _ h₂ =>
    (h₂.block hfull).trans fun _ h₃ => h₃.fin

/-- Without room for the length field: zeros to the end of the block, the block, and then all of the next one
(40_padder.md R97). -/
theorem Stage.finish_of_gt (h : Stage alg l done tail .pz true false s) (hlo : 112 < tail.length)
    (hhi : tail.length ≤ 128) :
    RunsTo 298 s fun t =>
      SessionClosed alg l (done ++ (tail ++ List.replicate (240 - tail.length) 0x00#8 ++ be128 (8 * l))) t ∧
        t.rspv = false := by
  have hfull : (tail ++ List.replicate (128 - tail.length) 0x00#8).length = 128 := by
    rw [List.length_append, List.length_replicate]
    omega
  have hsplit : done ++ (tail ++ List.replicate (240 - tail.length) 0x00#8 ++ be128 (8 * l)) =
      done ++ (tail ++ List.replicate (128 - tail.length) 0x00#8) ++
        ([] ++ List.replicate (112 - ([] : List Byte).length) 0x00#8 ++ be128 (8 * l)) := by
    have hcount : 240 - tail.length = 128 - tail.length + (112 - ([] : List Byte).length) := by
      rw [List.length_nil]
      omega
    rw [hcount, ← List.replicate_append_replicate, List.nil_append]
    simp only [List.append_assoc]
  rw [hsplit]
  exact (h.pz_of_gt hlo hhi).trans (n := 297) fun _ h₁ => (h₁.block hfull).trans fun _ h₂ =>
    h₂.finish_of_le (Nat.zero_le 112)

end

end Sys2Proof.Machine
end

section
/-! PROOFS. A session end to end (44_variants_constants.md R165): `INIT*`, `DATA` for each byte, `FINAL`, and the read-out
of the digest. -/

namespace Sys2Proof.Machine

open Sys2Proof

/-! ## The padded message -/

/-- Padding appends the marker, zeros and the length to the bytes that stand in the buffer; the whole blocks before them
stay (40_padder.md R90). -/
theorem pad_append {done tail : List Byte} :
    pad (done ++ tail) = done ++ (tail ++ [0x80#8] ++ List.replicate (zeroBytes (done ++ tail).length) 0x00#8 ++
      be128 (8 * (done ++ tail).length)) := by
  simp only [pad, List.append_assoc]

/-- After the pad marker the micro-operations complete `Pad(m)`, whether or not its length field fits the block of the
marker, and leave the digest (40_padder.md R91, R97). -/
theorem Stage.finish {alg : Alg} {done tail : List Byte} {s : State}
    (h : Stage alg (done ++ tail).length done (tail ++ [0x80#8]) .pz true false s) (hlen : tail.length < 128) :
    ∃ k ≤ 298, RunsTo k s fun t => SessionClosed alg (done ++ tail).length (pad (done ++ tail)) t ∧ t.rspv = false := by
  have hmarked : (tail ++ [0x80#8]).length = tail.length + 1 := List.length_append
  have hmod : (done ++ tail).length % 128 = tail.length := by
    obtain ⟨q, hq⟩ := h.whole
    rw [List.length_append]
    omega
  rw [pad_append, zeroBytes_eq, hmod]
  by_cases hroom : tail.length ≤ 111
  · have hzeros : 111 - tail.length = 112 - (tail ++ [0x80#8]).length := by omega
    rw [if_pos hroom, hzeros]
    exact ⟨150, by decide, h.finish_of_le (by omega)⟩
  · have hzeros : 239 - tail.length = 240 - (tail ++ [0x80#8]).length := by omega
    rw [if_neg hroom, hzeros]
    exact ⟨298, le_refl _, h.finish_of_gt (by omega) (by omega)⟩

/-! ## The host acts of a session -/

/-- The core is ready in an open session of `alg` that has absorbed the bytes `p`: the whole blocks are compressed, the
rest stands in the buffer. -/
def Absorbed (alg : Alg) (p : List Byte) (s : State) : Prop :=
  ∃ done tail, done ++ tail = p ∧ tail.length < 128 ∧ Stage alg p.length done tail .idle false false s

/-- An absorbing core is ready. -/
theorem Absorbed.ph_idle {alg : Alg} {p : List Byte} {s : State} (h : Absorbed alg p s) : s.ph = .idle := by
  obtain ⟨_, _, -, -, hstage⟩ := h
  exact hstage.ph

/-- An absorbing core shows no response. -/
theorem Absorbed.rspv_false {alg : Alg} {p : List Byte} {s : State} (h : Absorbed alg p s) : s.rspv = false := by
  obtain ⟨_, _, -, -, hstage⟩ := h
  exact hstage.rspv

/-- The word of `INIT*` opens a session (45_commands.md R172, R173). -/
theorem acceptWord_initWord (alg : Alg) (s : State) : acceptWord (initWord alg) s = .next (startSession alg s) := by
  cases alg with
  | sha512 => exact acceptWord_of_decode (i := .init512) (by decide) s
  | sha384 => exact acceptWord_of_decode (i := .init384) (by decide) s

/-- `INIT*` opens an empty session from any ready state, whatever it holds (45_commands.md R172, R173). -/
theorem perform_init (alg : Alg) {s : State} (hidle : s.ph = .idle) :
    ∃ t, perform (.word (initWord alg)) s = .next t ∧ Absorbed alg [] t :=
  ⟨_, perform_word_of_idle hidle (acceptWord_initWord alg _) rfl hidle, [], [], rfl, by decide,
    { quiet := rfl, st := rfl, err := rfl, rspv := rfl, len := rfl, h := rfl, whole := ⟨0, rfl⟩, cnt := rfl
      buf := fun _ ha => absurd ha (Nat.not_lt_zero _), ph := hidle, finf := rfl, lw := rfl, alg := rfl }⟩

/-- The word of `DATA b` decodes to it (30_encoding.md R71). -/
theorem decodeCommand_dataWord (b : Byte) : decodeCommand (dataWord b) = .ok (.data b) :=
  decodeCommand_eq_ok_iff.mpr ⟨rfl, rfl⟩

/-- In its own session state a command does its effect after clearing the response (30_encoding.md R76). -/
theorem ifSession_of_legal {legal : SessionState} {s : State} (body : State → Result) (hlegal : s.st = legal)
    (herr : legal ≠ .error) : ifSession legal s body = body (clearResponse s) := by
  rw [ifSession, if_neg (hlegal ▸ herr), if_pos hlegal]

/-- `DATA b` that fits the counter appends the byte, and starts the block that it fills (45_commands.md R174). -/
theorem Stage.acceptWord_data {alg : Alg} {l : Nat} {done tail : List Byte} {s : State} (b : Byte)
    (h : Stage alg l done tail .idle false false s) (hlen : tail.length < 128) (hfit : 8 * (l + 1) < 2 ^ 64) :
    ∃ t, acceptWord (dataWord b) s = .next t ∧
      Stage alg (l + 1) done (tail ++ [b]) (if tail.length + 1 = 128 then .ldw else .idle) false false t := by
  have hroom : s.len.toNat ≠ 2 ^ 64 - 8 := by
    rw [h.len]
    omega
  have hnotFull : lenFull s.len ≠ true := mt (lenFull_iff s.len).mp hroom
  have hlenAdd : (s.len + 8).toNat = 8 * (l + 1) := by
    rw [len_add_eight (by rw [h.len]; omega) hroom, h.len]
    rfl
  have hcnt : s.cnt.toNat < 128 := by rw [h.cnt]; exact hlen
  have hfull : s.cnt + 1 = 128 ↔ tail.length + 1 = 128 := by
    rw [← BitVec.toNat_inj, h.cnt_add_one b hlen, List.length_append]
    rfl
  have haccept : acceptWord (dataWord b) s = .next { s with
      rspv := false, buf := s.buf.write s.cnt.toNat b, cnt := s.cnt + 1, len := s.len + 8
      ph := if s.cnt + 1 = 128 then .ldw else s.ph } := by
    rw [acceptWord_of_decode (decodeCommand_dataWord b), exec, execData, ifSession_of_legal _ h.st (by decide),
      absorbByte, clearResponse_len, if_neg hnotFull]
    exact orFault_eq_next.mpr ⟨_, appendByte_eq_ok.mpr ⟨hcnt, rfl⟩, rfl⟩
  refine ⟨_, haccept, { h with
    rspv := rfl, len := hlenAdd, cnt := h.cnt_add_one b hlen, buf := fun a ha => ?_, ph := ?_ }⟩
  · rw [h.cnt]
    exact read_write_append_singleton h.buf b ha
  · simp only [hfull, h.ph]

/-- `DATA b` takes the session on by the byte `b`; the byte that fills the buffer has its block compressed
(45_commands.md R174, 42_compressor.md R137). -/
theorem perform_data {alg : Alg} {p : List Byte} {s : State} (b : Byte) (h : Absorbed alg p s)
    (hfit : 8 * (p.length + 1) < 2 ^ 64) :
    ∃ t, perform (.word (dataWord b)) s = .next t ∧ Absorbed alg (p ++ [b]) t := by
  have hidle := h.ph_idle
  obtain ⟨done, tail, rfl, hlen, hstage⟩ := h
  obtain ⟨t, haccept, ht⟩ := hstage.acceptWord_data b hlen hfit
  rw [← hstage.inputs_eq] at haccept
  have hcount : (tail ++ [b]).length = tail.length + 1 := List.length_append
  have htotal : (done ++ tail ++ [b]).length = (done ++ tail).length + 1 := List.length_append
  by_cases hfull : tail.length + 1 = 128
  · rw [if_pos hfull] at ht
    have hrun : RunsTo 147 t (Absorbed alg (done ++ tail ++ [b])) :=
      (ht.block (hcount.trans hfull)).trans (n := 0) fun u hu =>
        ⟨u, runSteps_zero u, done ++ (tail ++ [b]), [], by simp, by decide, by rw [htotal]; exact hu⟩
    exact perform_word_of_runsTo hidle haccept ht.quiet hrun (fun _ hu => hu.ph_idle) (by decide)
  · rw [if_neg hfull] at ht
    exact ⟨t, perform_word_of_idle hidle haccept ht.quiet ht.ph, done, tail ++ [b], by simp, by omega,
      by rw [htotal]; exact ht⟩

/-- `FINAL` pads, compresses what is left and leaves the digest (45_commands.md R175). -/
theorem perform_final {alg : Alg} {m : List Byte} {s : State} (h : Absorbed alg m s) :
    ∃ t, perform (.word finalWord) s = .next t ∧ SessionClosed alg m.length (pad m) t ∧ t.rspv = false := by
  have hidle := h.ph_idle
  obtain ⟨done, tail, rfl, hlen, hstage⟩ := h
  have haccept : acceptWord finalWord { s with inputs := [] } = .next { s with
      rspv := false, finf := true, lw := false, ph := .p80 } := by
    rw [hstage.inputs_eq, acceptWord_of_decode (i := .final) (by decide), exec, execFinal,
      ifSession_of_legal _ hstage.st (by decide)]
    rfl
  have hmarker : Stage alg (done ++ tail).length done tail .p80 true false
      { s with rspv := false, finf := true, lw := false, ph := .p80 } :=
    { hstage with rspv := rfl, ph := rfl, finf := rfl, lw := rfl }
  obtain ⟨u, hu, hpz⟩ := hmarker.p80 hlen
  obtain ⟨k, hk, hfinish⟩ := hpz.finish hlen
  obtain ⟨t, ht, hclosed, hrsp⟩ := hfinish
  have hbound : 1 + k ≤ settleBound := by
    unfold settleBound
    omega
  exact perform_word_of_runsTo (P := fun t => SessionClosed alg _ _ t ∧ t.rspv = false) hidle haccept hstage.quiet
    ⟨t, by rw [runSteps_add hu, ht], hclosed, hrsp⟩ (fun _ ⟨hu, _⟩ => hu.ph) hbound

/-! ## The whole session -/

/-- The `DATA` words of a message take the session on by the message, byte by byte, and return nothing. -/
theorem performs_data {alg : Alg} {p m : List Byte} {s : State} (h : Absorbed alg p s)
    (hfit : 8 * (p.length + m.length) < 2 ^ 64) :
    ∃ t, Performs (m.map fun b => .word (dataWord b)) s [] t ∧ Absorbed alg (p ++ m) t := by
  induction m generalizing p s with
  | nil => exact ⟨s, .nil s, by rwa [List.append_nil]⟩
  | cons b m ih =>
    rw [List.length_cons] at hfit
    obtain ⟨t, hperform, ht⟩ := perform_data b h (by omega)
    obtain ⟨u, hrest, hu⟩ := ih ht (by rw [List.length_append, List.length_singleton]; omega)
    exact ⟨u, .cons_silent hperform ht.rspv_false hrest, by simpa using hu⟩

/-- A session from any ready state leaves the digest of the padded message, and returns nothing (45_commands.md R178). -/
theorem performs_session (alg : Alg) {m : List Byte} {s : State} (hidle : s.ph = .idle)
    (hfit : 8 * m.length < 2 ^ 64) :
    ∃ t, Performs (sessionActs alg m) s [] t ∧ SessionClosed alg m.length (pad m) t := by
  obtain ⟨s₁, hinit, h₁⟩ := perform_init alg hidle
  obtain ⟨s₂, hdata, h₂⟩ := performs_data (m := m) h₁ (by simpa using hfit)
  obtain ⟨t, hfinal, hclosed, hrsp⟩ := perform_final h₂
  exact ⟨t, .cons_silent hinit h₁.rspv_false (hdata.append (.cons_silent hfinal hrsp (.nil t))), hclosed⟩

/-! ## The read-out -/

/-- The host's word for `RDDG n` decodes to it (30_encoding.md R71, R80). -/
theorem decodeCommand_digestWord {n : Nat} (hn : n < 64) :
    decodeCommand (0x0400#16 + BitVec.ofNat 16 n) = .ok (.rddg (BitVec.ofNat 8 n)) := by
  have hword : BitVec.ofNat 16 n = (BitVec.ofNat 8 n).setWidth 16 := by
    apply BitVec.eq_of_toNat_eq
    rw [BitVec.toNat_setWidth, BitVec.toNat_ofNat, BitVec.toNat_ofNat]
    omega
  have hsmall : (BitVec.ofNat 8 n).toNat < 64 := by
    rw [BitVec.toNat_ofNat]
    omega
  exact decodeCommand_eq_rddg_iff.mpr ⟨by rw [hword], hsmall⟩

/-- In a closed session `RDDG n` inside the digest shows byte `n` of it (45_commands.md R176). -/
theorem SessionClosed.acceptWord_rddg {alg : Alg} {l n : Nat} {bytes : List Byte} {s : State}
    (h : SessionClosed alg l bytes s) (hn : n < dlen alg) :
    acceptWord (0x0400#16 + BitVec.ofNat 16 n) s =
      .next { s with rspd := (finalize alg (chain alg bytes)).getD n 0, rspv := true } := by
  have hn64 : n < 64 := Nat.lt_of_lt_of_le hn (dlen_le alg)
  have hindex : (BitVec.ofNat 8 n).toNat = n := by
    rw [BitVec.toNat_ofNat]
    omega
  have hbyte : s.dg.read n = some ((finalize alg (chain alg bytes)).getD n 0) := by
    rw [h.dg n hn, List.getD_eq_getElem?_getD, List.getElem?_eq_getElem (by rwa [length_finalize])]
    rfl
  rw [acceptWord_of_decode (decodeCommand_digestWord hn64), exec, execRddg, ifSession_of_legal _ h.st (by decide),
    respond, clearResponse_alg, hindex, h.alg, if_neg (Nat.not_le.mpr hn)]
  exact orFault_eq_next.mpr ⟨_, readByte_eq_ok.mpr ⟨hn64, hbyte⟩, rfl⟩

/-- The host's `RDDG n` inside the digest leaves the session closed and byte `n` on show (45_commands.md R176). -/
theorem perform_rddg {alg : Alg} {l n : Nat} {bytes : List Byte} {s : State} (h : SessionClosed alg l bytes s)
    (hn : n < dlen alg) :
    ∃ t, perform (.word (0x0400#16 + BitVec.ofNat 16 n)) s = .next t ∧ SessionClosed alg l bytes t ∧ t.rspv = true ∧
      t.rspd = (finalize alg (chain alg bytes)).getD n 0 := by
  have hquiet : SessionClosed alg l bytes { s with inputs := [] } := { h with }
  exact ⟨_, perform_word_of_idle h.ph (hquiet.acceptWord_rddg hn) rfl h.ph, { h with }, rfl, rfl⟩

/-- Reading digest bytes by their indices returns those bytes, in the order read (45_commands.md R176). -/
theorem performs_reads {alg : Alg} {l : Nat} {bytes : List Byte} {s : State} (h : SessionClosed alg l bytes s)
    {ns : List Nat} (hns : ∀ n ∈ ns, n < dlen alg) :
    ∃ t, Performs (ns.map fun n => .word (0x0400#16 + BitVec.ofNat 16 n)) s
      (ns.map fun n => (finalize alg (chain alg bytes)).getD n 0) t := by
  induction ns generalizing s with
  | nil => exact ⟨s, .nil s⟩
  | cons n ns ih =>
    obtain ⟨hn, hrest⟩ := List.forall_mem_cons.mp hns
    obtain ⟨t, hperform, ht, hrsp, hbyte⟩ := perform_rddg h hn
    obtain ⟨u, hu⟩ := ih ht hrest
    have hcons := Performs.cons_response hperform hrsp hu
    rw [hbyte] at hcons
    exact ⟨u, hcons⟩

/-- A list is its entries by index. -/
theorem map_getD_range {bytes : List Byte} {n : Nat} (h : bytes.length = n) :
    ((List.range n).map fun k => bytes.getD k 0) = bytes := by
  subst h
  apply List.ext_getElem
  · rw [List.length_map, List.length_range]
  · intro k _ hk
    rw [List.getElem_map, List.getElem_range, List.getD_eq_getElem _ _ hk]

/-- `DIGEST` in a closed session returns the digest (30_encoding.md R80). -/
theorem performs_digest {alg : Alg} {l : Nat} {bytes : List Byte} {s : State} (h : SessionClosed alg l bytes s) :
    ∃ t, Performs (digestActs alg) s (finalize alg (chain alg bytes)) t := by
  have hreads := performs_reads h (ns := List.range (dlen alg)) fun n hn => List.mem_range.mp hn
  rwa [map_getD_range (length_finalize alg _)] at hreads

/-- Settles O39, by following the byte string from `INIT*` through every `DATA` and the padding to the digest register,
and then the read-out. -/
theorem sessionComputesHash : Obligations.SessionComputesHash := by
  intro alg m s hidle hfit
  rw [hash_eq_finalize_chain]
  obtain ⟨t, hsession, hclosed⟩ := performs_session alg hidle hfit
  obtain ⟨u, hdigest⟩ := performs_digest hclosed
  obtain ⟨-, hout⟩ := hsession.append hdigest
  obtain ⟨hrun, -⟩ := hsession
  exact ⟨⟨t, hrun, hclosed.st, hclosed.err, hclosed.ph, hclosed.alg, hclosed.cnt, hclosed.len, hclosed.dg⟩, hout⟩

end Sys2Proof.Machine
end

section
/-! PROOFS. Opening a session (45_commands.md R172, R173): `INIT512` and `INIT384` in any state. -/

namespace Sys2Proof.Machine

open Sys2Proof

/-- The word of `INIT512` (30_encoding.md R71). -/
theorem encode_init512 : encode .init512 = .cmd16 (initWord .sha512) :=
  congrArg Code.cmd16 (commandWord_eq_iff.mpr ⟨by decide, by decide⟩)

/-- The word of `INIT384` (30_encoding.md R71). -/
theorem encode_init384 : encode .init384 = .cmd16 (initWord .sha384) :=
  congrArg Code.cmd16 (commandWord_eq_iff.mpr ⟨by decide, by decide⟩)

/-- `INIT512` opens a SHA-512 session, with no check of the session state (45_commands.md R172). -/
theorem exec_init512 (s : State) : exec .init512 s = .next (startSession .sha512 s) := rfl

/-- `INIT384` opens a SHA-384 session, with no check of the session state (45_commands.md R173). -/
theorem exec_init384 (s : State) : exec .init384 s = .next (startSession .sha384 s) := rfl

/-- Settles O11: each command is `startSession` of its algorithm, whose hash value is that algorithm's initial one. -/
theorem initOpensFreshSession : Obligations.InitOpensFreshSession := by
  refine ⟨⟨encode_init512, encode_init384⟩, fun s => ⟨?init512, ?init384⟩⟩
  case init512 => exact ⟨iv .sha512, fun _ => rfl, exec_init512 s⟩
  case init384 => exact ⟨iv .sha384, fun _ => rfl, exec_init384 s⟩

end Sys2Proof.Machine
end

section
/-! PROOFS. Faults (60_exceptions.md): who raises one and what taking it writes (R200 to R204), what `ERROR` ignores (R205),
and the ways out of it (R206). -/

namespace Sys2Proof.Machine

open Sys2Proof Sys2Proof.Safety

/-! ## Micro-operations raise nothing -/

/-- What a micro-operation does to the registers of the session: it raises nothing (60_exceptions.md R200), keeps `ALG` and
`LEN` (10_state.md R30, R35), and moves `ST` only in `FIN` (R34). -/
structure UopFrame (s t : State) : Prop where
  err : t.err = s.err
  alg : t.alg = s.alg
  len : t.len = s.len
  st : t.st = if s.ph = .fin then .done else s.st

/-- Every micro-operation keeps to that frame. -/
theorem uop_frame {s t : State} {i : Instr} (hi : fetchUop s = .ok i) (h : exec i s = .next t) : UopFrame s t := by
  unfold fetchUop at hi
  cases hph : s.ph <;> rw [hph] at hi <;> cases hi
  case p80 =>
    obtain ⟨s', hs', hk⟩ := orFault_eq_next.mp h
    obtain ⟨-, rfl⟩ := appendByte_eq_ok.mp hs'
    cases hk
    exact ⟨rfl, rfl, rfl, by simp [hph]⟩
  case pz =>
    simp only [exec, execPz, zeroFill_buf] at h
    split at h <;> cases h <;> exact ⟨rfl, rfl, rfl, by simp [hph]⟩
  case plen =>
    simp only [exec, execPlen, memWrite_buf] at h
    cases h
    exact ⟨rfl, rfl, rfl, by simp [hph]⟩
  case ldw | exp | rnd =>
    obtain ⟨_, -, hk⟩ := orFault_eq_next.mp h
    cases hk
    exact ⟨rfl, rfl, rfl, by simp [hph]⟩
  case ldv | add | fin =>
    cases h
    exact ⟨rfl, rfl, rfl, by simp [hph]⟩

/-- A micro-operation does not enter `ERROR`. -/
theorem UopFrame.st_ne_error {s t : State} (h : UopFrame s t) (hst : s.st ≠ .error) : t.st ≠ .error := by
  rw [h.st]
  split
  · decide
  · exact hst

/-! ## What an accepted word does to `ST` and `ERR` -/

/-- The fault codes that have a cause (60_exceptions.md R200, R201); `ALLOCATION_FAILURE` has none (R202). -/
def HasCause (c : ErrCode) : Prop := c = .inputTooLarge ∨ c = .cmdIllegal ∨ c = .cmdSequence ∨ c = .digestIndex

theorem not_hasCause_allocationFailure : ¬ HasCause .allocationFailure := by simp [HasCause]

/-- A fault is taken outside `ERROR`, or `ST` and `ERR` keep their values. -/
def FaultsOrKeeps (s t : State) : Prop :=
  (∃ c, HasCause c ∧ s.st ≠ .error ∧ t = takeFault c s) ∨ (t.st = s.st ∧ t.err = s.err)

/-- Taking a fault with a cause, outside `ERROR`. -/
theorem takeFault_faultsOrKeeps {c : ErrCode} {s : State} (hc : HasCause c) (hst : s.st ≠ .error) :
    FaultsOrKeeps s (takeFault c s) := .inl ⟨c, hc, hst, rfl⟩

/-- `DATA` in `ABSORB` raises `InputTooLarge` or appends (45_commands.md R174). -/
theorem absorbByte_faultsOrKeeps {b : Byte} {s t : State} (hst : s.st ≠ .error) (h : absorbByte b s = .next t) :
    FaultsOrKeeps s t := by
  unfold absorbByte at h
  split at h
  · cases h
    exact takeFault_faultsOrKeeps (.inl rfl) hst
  · obtain ⟨s', hs', hk⟩ := orFault_eq_next.mp h
    obtain ⟨-, rfl⟩ := appendByte_eq_ok.mp hs'
    cases hk
    exact .inr ⟨rfl, rfl⟩

/-- `FINAL` in `ABSORB` leaves the session open (45_commands.md R175). -/
theorem beginFinal_faultsOrKeeps {s t : State} (h : beginFinal s = .next t) : FaultsOrKeeps s t := by
  cases h
  exact .inr ⟨rfl, rfl⟩

/-- `RDDG` in `DONE` raises `DIGEST_INDEX` or responds (45_commands.md R176). -/
theorem respond_faultsOrKeeps {n : Byte} {s t : State} (hst : s.st ≠ .error) (h : respond n s = .next t) :
    FaultsOrKeeps s t := by
  unfold respond at h
  split at h
  · cases h
    exact takeFault_faultsOrKeeps (.inr (.inr (.inr rfl))) hst
  · obtain ⟨_, -, hk⟩ := orFault_eq_next.mp h
    cases hk
    exact .inr ⟨rfl, rfl⟩

/-- A command that is legal in one session state faults or keeps the session if its effect there does. -/
theorem ifSession_faultsOrKeeps {legal : SessionState} {s t : State} {body : State → Result}
    (hbody : ∀ u v, u.st ≠ .error → body u = .next v → FaultsOrKeeps u v) (h : ifSession legal s body = .next t) :
    FaultsOrKeeps s t := by
  obtain ⟨-, rfl⟩ | ⟨hst, -, rfl⟩ | ⟨hst, -, heff⟩ := ifSession_eq_next h
  · exact .inr ⟨rfl, rfl⟩
  · exact takeFault_faultsOrKeeps (.inr (.inr (.inl rfl))) hst
  · exact hbody (clearResponse s) t hst heff

/-- A word that is no instruction raises `CMD_ILLEGAL`, or is ignored in `ERROR` (30_encoding.md R74). -/
theorem acceptIllFormed_faultsOrKeeps (s : State) : FaultsOrKeeps s (acceptIllFormed s) := by
  by_cases hst : s.st = .error
  · rw [acceptIllFormed_of_error hst]
    exact .inr ⟨rfl, rfl⟩
  · rw [acceptIllFormed_of_ne_error hst]
    exact takeFault_faultsOrKeeps (.inr (.inl rfl)) hst

/-- A host command is an `INIT*`, legal everywhere, or has one session state in which it is legal (45_commands.md R172 to
R176). -/
theorem decodeCommand_ok_cases {cmd : BitVec 16} {i : Instr} (h : decodeCommand cmd = .ok i) :
    (∃ alg, cmd = initWord alg ∧ ∀ s, exec i s = .next (startSession alg s)) ∨
    (∃ legal body, (∀ s, exec i s = ifSession legal s body) ∧
      ∀ s t, s.st ≠ .error → body s = .next t → FaultsOrKeeps s t) := by
  obtain ⟨-, henc⟩ := decodeCommand_eq_ok_iff.mp h
  cases i
  case init512 => exact .inl ⟨.sha512, Code.cmd16.inj (henc.symm.trans encode_init512), exec_init512⟩
  case init384 => exact .inl ⟨.sha384, Code.cmd16.inj (henc.symm.trans encode_init384), exec_init384⟩
  case data b => exact .inr ⟨.absorb, absorbByte b, fun _ => rfl, fun _ _ => absorbByte_faultsOrKeeps⟩
  case final => exact .inr ⟨.absorb, beginFinal, fun _ => rfl, fun _ _ _ => beginFinal_faultsOrKeeps⟩
  case rddg n => exact .inr ⟨.done, respond n, fun _ => rfl, fun _ _ => respond_faultsOrKeeps⟩
  case p80 | pz | plen | ldw | exp | ldv | rnd | add | fin => cases henc

/-- An accepted word opens a session, takes a fault, or keeps `ST` and `ERR`. -/
theorem acceptWord_cases {cmd : BitVec 16} {s t : State} (h : acceptWord cmd s = .next t) :
    (∃ alg, cmd = initWord alg ∧ t = startSession alg s) ∨ FaultsOrKeeps s t := by
  cases hdec : decodeCommand cmd with
  | error e =>
    rw [acceptWord, hdec] at h
    cases h
    exact .inr (acceptIllFormed_faultsOrKeeps s)
  | ok i =>
    rw [acceptWord_of_decode hdec] at h
    obtain ⟨alg, hcmd, hexec⟩ | ⟨legal, body, hexec, hbody⟩ := decodeCommand_ok_cases hdec
    · rw [hexec] at h
      cases h
      exact .inl ⟨alg, hcmd, rfl⟩
    · exact .inr (ifSession_faultsOrKeeps hbody (hexec s ▸ h))

/-- In `ERROR` every word but the two `INIT*` clears the response flag and is ignored (60_exceptions.md R205). -/
theorem acceptWord_of_error {cmd : BitVec 16} {s : State} (hst : s.st = .error) (hcmd : ∀ alg, cmd ≠ initWord alg) :
    acceptWord cmd s = .next (clearResponse s) := by
  cases hdec : decodeCommand cmd with
  | error e => rw [acceptWord, hdec, acceptIllFormed_of_error hst]
  | ok i =>
    rw [acceptWord_of_decode hdec]
    obtain ⟨alg, hinit, -⟩ | ⟨legal, body, hexec, -⟩ := decodeCommand_ok_cases hdec
    · exact absurd hinit (hcmd alg)
    · rw [hexec, ifSession, if_pos hst]

/-! ## Steps -/

/-- In `ERROR` no micro-operation is owed (60_exceptions.md R208). -/
theorem ph_idle_of_error {s : State} (hinv : Inv s) (hst : s.st = .error) : s.ph = .idle := by
  by_contra hbusy
  exact absurd (hinv.busyAbsorb hbusy) (by simp [hst])

/-- Settles O16, by the ways a step can go: reset, micro-operations and quiet ports do not enter `ERROR`, and of the ways of
an accepted word only the fault does. -/
theorem faultEntryWritesThreeRegisters : Obligations.FaultEntryWritesThreeRegisters := by
  intro p s t h hout hin
  obtain ⟨-, he⟩ | ⟨-, -, i, hi, he⟩ | ⟨hrst, hidle, hvalid, he⟩ | ⟨-, -, -, he⟩ := stepWith_cases p s <;> rw [he] at h
  · cases h
    cases hin
  · exact absurd hin ((uop_frame hi h).st_ne_error hout)
  · obtain ⟨alg, -, rfl⟩ | ⟨c, hc, -, rfl⟩ | ⟨hkept, -⟩ := acceptWord_cases h
    · cases hin
    · exact ⟨⟨hrst, hvalid, hidle⟩, hc, rfl⟩
    · exact absurd (hkept ▸ hin) hout
  · cases h
    exact absurd hin hout

/-- Settles O17: the two words excepted are those of `INIT512` and `INIT384`. -/
theorem errorStateIgnoresAllButInit : Obligations.ErrorStateIgnoresAllButInit := by
  intro s cmd hidle hst h512 h384
  have hinit : ∀ alg, cmd ≠ initWord alg
    | .sha512 => h512
    | .sha384 => h384
  have hstep : stepWith (presenting cmd) s = acceptWord cmd s := stepWith_eq_acceptWord rfl rfl hidle
  exact ⟨hstep.trans (acceptWord_of_error hst hinit), (cmdReady_iff _).mpr hidle⟩

/-- Settles O18, by the ways a step of an idle core can go: of those without reset only the opening of a session moves `ST`
out of `ERROR`. -/
theorem errorIsLeftOnlyByInitOrReset : Obligations.ErrorIsLeftOnlyByInitOrReset := by
  intro p s t hinv hst h hleft
  obtain ⟨hrst, -⟩ | ⟨-, hbusy, -⟩ | ⟨-, hidle, hvalid, he⟩ | ⟨-, -, -, he⟩ := stepWith_cases p s
  · exact .inl hrst
  · exact absurd (ph_idle_of_error hinv hst) hbusy
  · rw [he] at h
    obtain ⟨alg, hcmd, rfl⟩ | ⟨_, -, hne, -⟩ | ⟨hkept, -⟩ := acceptWord_cases h
    · exact .inr ⟨alg, hidle, hvalid, hcmd, rfl, rfl, rfl, rfl, rfl, rfl⟩
    · exact absurd hst hne
    · exact absurd (hkept.trans hst) hleft
  · rw [he] at h
    cases h
    exact absurd hst hleft

/-- A step keeps `ERR`, clears it, or raises a fault that has a cause (60_exceptions.md R200 to R202). -/
theorem stepWith_err_cases {p : Pins} {s t : State} (h : stepWith p s = .next t) :
    t.err = s.err ∨ t.err = .none ∨ HasCause t.err := by
  obtain ⟨-, he⟩ | ⟨-, -, i, hi, he⟩ | ⟨-, -, -, he⟩ | ⟨-, -, -, he⟩ := stepWith_cases p s <;> rw [he] at h
  · cases h
    exact .inr (.inl rfl)
  · exact .inl (uop_frame hi h).err
  · obtain ⟨alg, -, rfl⟩ | ⟨c, hc, -, rfl⟩ | ⟨-, hkept⟩ := acceptWord_cases h
    · exact .inr (.inl rfl)
    · exact .inr (.inr hc)
    · exact .inl hkept
  · cases h
    exact .inl rfl

/-- Settles O19: `ALLOCATION_FAILURE` has no cause, so a step that ends with it has kept it. -/
theorem allocationFailureIsNeverRaised : Obligations.AllocationFailureIsNeverRaised := by
  intro s t h halloc
  obtain hkept | hnone | hcause := stepWith_err_cases h
  · exact hkept.symm.trans halloc
  · exact absurd (hnone.symm.trans halloc) (by decide)
  · exact absurd (halloc ▸ hcause) not_hasCause_allocationFailure

end Sys2Proof.Machine
end

section
/-! PROOFS. The encoding of both formats (30_encoding.md R70 to R78): decoding and encoding are inverse to each other, on
command words and on phase codes. -/

namespace Sys2Proof.Machine

open Sys2Proof

/-- A phase code names the micro-operation that is encoded by it, and no other (30_encoding.md R77). -/
theorem decodeUop_eq_ok_iff {ph : BitVec 4} {i : Instr} : decodeUop ph = .ok i ↔ encode i = .uop ph := by
  constructor
  · intro h
    have hcode {c : BitVec 4} (hc : ph.toNat = c.toNat) : Code.uop c = .uop ph :=
      congrArg _ (BitVec.eq_of_toNat_eq hc.symm)
    unfold decodeUop at h
    split at h <;> cases h <;> exact hcode ‹_›
  · intro h
    cases i <;> cases h <;> rfl

/-- The decoder of either format answers the well-formed instruction that the bits encode, and no other. -/
theorem decode_eq_ok_iff {c : Code} {i : Instr} : decode c = .ok i ↔ i.wellFormed = true ∧ encode i = c := by
  cases c with
  | cmd16 cmd => exact decodeCommand_eq_ok_iff
  | uop ph =>
    have hwf : encode i = .uop ph → i.wellFormed = true := by cases i <;> intro h <;> cases h <;> rfl
    exact decodeUop_eq_ok_iff.trans ⟨fun h => ⟨hwf h, h⟩, fun ⟨_, h⟩ => h⟩

/-- Settles O1: the decoder answers what the bits encode. -/
theorem decodeInvertsEncode : Obligations.DecodeInvertsEncode :=
  fun _ hwf => decode_eq_ok_iff.mpr ⟨hwf, rfl⟩

/-- Settles O2: what the decoder answers is well formed and encodes to the bits it was read from. -/
theorem encodeInvertsDecode : Obligations.EncodeInvertsDecode :=
  fun _ _ h => decode_eq_ok_iff.mp h

/-- A table word of 16 bits is the command that it encodes (log 18). -/
theorem decodeTableWord_command {w : Nat} {i : Instr} (hw : w < 65536) (hwf : i.wellFormed = true)
    (henc : encode i = .cmd16 (BitVec.ofNat 16 w)) : decodeTableWord 16 w = some i := by
  have hcode : codeOfTable 16 w = some (.cmd16 (BitVec.ofNat 16 w)) := by rw [codeOfTable, if_pos rfl, if_pos hw]
  rw [decodeTableWord, hcode]
  simp only [decode_eq_ok_iff.mpr ⟨hwf, henc⟩]

/-- A table word of 8 bits is the micro-operation that it encodes (log 18). -/
theorem decodeTableWord_uop {w : Nat} {i : Instr} (hw : w < 16) (henc : encode i = .uop (BitVec.ofNat 4 w)) :
    decodeTableWord 8 w = some i := by
  have hcode : codeOfTable 8 w = some (.uop (BitVec.ofNat 4 w)) := by
    rw [codeOfTable, if_neg (by decide), if_pos (.inl rfl), if_pos hw]
  rw [decodeTableWord, hcode]
  simp only [decode, decodeUop_eq_ok_iff.mpr henc]

/-- Settles O5: each word is the encoding of what it stands for, and the reserved ones are rejected by the decoder. -/
theorem tableWordsDecode : Obligations.TableWordsDecode := by
  refine ⟨?init512, ?init384, ?data, ?final, ?rddg, ?rddgOut, ?p80, ?exp, ?rnd, ?fin, ?idle, ?reserved⟩
  case init512 | init384 | data | final | rddg =>
    exact decodeTableWord_command (by decide) (by decide) (congrArg Code.cmd16 (by decide))
  case p80 | exp | rnd | fin => exact decodeTableWord_uop (by decide) rfl
  case rddgOut | idle | reserved => decide

end Sys2Proof.Machine
end

section
/-! PROOFS. The nine micro-operations (30_encoding.md R77): the next state of each one, once; what the words and bytes they
write are, as the rules state them (40_padder.md R94 to R96, 41_scheduler.md R113, R114, 42_compressor.md R134 to R136,
43_finalizer.md R151). -/

namespace Sys2Proof.Machine

open Sys2Proof

/-! ## The next state of each micro-operation -/

/-- Going on after a read to one next state. -/
theorem orFault_next_iff {α : Type} {r : Except Fault α} {g : α → State} {t : State} :
    orFault r (fun a => .next (g a)) = .next t ↔ ∃ a, r = .ok a ∧ t = g a := by
  rw [orFault_eq_next]
  exact exists_congr fun a => and_congr_right' (by rw [Host.Outcome.next.injEq, eq_comm])

/-- `P80` (40_padder.md R94). -/
theorem exec_p80_eq_next {s t : State} :
    exec .p80 s = .next t ↔ s.cnt.toNat < 128 ∧
      t = { s with buf := s.buf.write s.cnt.toNat 0x80#8, cnt := s.cnt + 1, ph := .pz } := by
  refine orFault_next_iff.trans ⟨fun ⟨u, hu, ht⟩ => ?_, fun ⟨hcnt, ht⟩ => ⟨_, appendByte_eq_ok.mpr ⟨hcnt, rfl⟩, ht⟩⟩
  obtain ⟨hcnt, rfl⟩ := appendByte_eq_ok.mp hu
  exact ⟨hcnt, ht⟩

/-- `PZ` with room for the length field (40_padder.md R95). -/
theorem exec_pz_of_le {s : State} (h : s.cnt.toNat ≤ 112) :
    exec .pz s = .next { s with buf := s.buf.zeroRange s.cnt.toNat 112, cnt := 112, ph := .plen } := if_pos h

/-- `PZ` without room for the length field (40_padder.md R95). -/
theorem exec_pz_of_gt {s : State} (h : 112 < s.cnt.toNat) :
    exec .pz s = .next { s with buf := s.buf.zeroRange s.cnt.toNat 128, cnt := 128, ph := .ldw } :=
  if_neg (Nat.not_le.mpr h)

/-- The length field's 128 bits have the value of the 64-bit counter (40_padder.md R96). -/
theorem toNat_lengthField (len : BitVec Config.LENW) : (lengthField len).toNat = len.toNat := by
  have hlt : len.toNat < 18446744073709551616 := len.isLt
  rw [lengthField, BitVec.toNat_setWidth]
  omega

/-- `PLEN` (40_padder.md R96). -/
theorem exec_plen (s : State) :
    exec .plen s = .next { s with buf := s.buf.writeBE 112 16 s.len.toNat, cnt := 128, lw := true, ph := .ldw } := by
  rw [exec, execPlen, toNat_lengthField, memWrite_buf]

/-- `LDW` (41_scheduler.md R113). -/
theorem exec_ldw_eq_next {s t : State} :
    exec .ldw s = .next t ↔ ∃ w, loadedSchedule s 16 = .ok w ∧ t = { s with w := w, t := 16, ph := .exp } :=
  orFault_next_iff

/-- `EXP` (41_scheduler.md R114). -/
theorem exec_exp_eq_next {s t : State} :
    exec .exp s = .next t ↔ ∃ x, expandedWord s.w s.t.toNat = .ok x ∧
      t = { s with
        w := s.w.setIfInBounds s.t.toNat x, t := s.t + 1, ph := if s.t + 1 = 80 then .ldv else s.ph } :=
  orFault_next_iff

/-- `LDV` (42_compressor.md R134). -/
theorem exec_ldv (s : State) : exec .ldv s = .next { s with v := s.h, t := 0, ph := .rnd } := rfl

/-- `RND` (42_compressor.md R135). -/
theorem exec_rnd_eq_next {s t : State} :
    exec .rnd s = .next t ↔ ∃ hlt : s.t.toNat < 80,
      t = { s with
        v := roundStep s.v (roundConstant s.t.toNat) s.w[s.t.toNat]
        t := s.t + 1, ph := if s.t + 1 = 80 then .add else s.ph } := by
  refine orFault_next_iff.trans ⟨fun ⟨kw, hkw, ht⟩ => ?_, fun ⟨hlt, ht⟩ => ⟨_, roundOperands_eq hlt, ht⟩⟩
  have hlt := roundOperands_range hkw
  cases (roundOperands_eq hlt).symm.trans hkw
  exact ⟨hlt, ht⟩

/-- `ADD` (42_compressor.md R136). -/
theorem exec_add (s : State) :
    exec .add s = .next { s with h := addBack s.h s.v, cnt := 0, t := 0, ph := afterBlock s.finf s.lw } := rfl

/-- `FIN` (43_finalizer.md R151). -/
theorem exec_fin (s : State) :
    exec .fin s = .next { s with
      dg := loadedDigest s.alg s.h s.dg, st := .done, finf := false, lw := false, ph := .idle } := rfl

/-! ## The Padder -/

/-- Settles O21: one byte is written, at `CNT`. -/
theorem padMarkerIsAppended : Obligations.PadMarkerIsAppended :=
  ⟨rfl, fun s hcnt => ⟨_, exec_p80_eq_next.mpr ⟨hcnt, rfl⟩, Memory.read_write s.buf s.cnt.toNat 0x80#8⟩⟩

/-- Settles O22, in the two cases of the room that is left for the length field. -/
theorem zeroFillStopsAtLengthFieldOrBlockEnd : Obligations.ZeroFillStopsAtLengthFieldOrBlockEnd :=
  ⟨rfl, fun s => ⟨fun hroom => ⟨_, exec_pz_of_le hroom, Memory.read_zeroRange s.buf _ 112⟩,
    fun hnone _ => ⟨_, exec_pz_of_gt hnone, Memory.read_zeroRange s.buf _ 128⟩⟩⟩

/-- The upper half of the length field of a 64-bit counter is zero (40_padder.md R96). -/
theorem byteOfValue_upper_half {k v : Nat} (hk : k < 8) (hv : v < 2 ^ 64) : byteOfValue 16 k v = 0x00#8 := by
  have hle : 2 ^ 64 ≤ 2 ^ (8 * (16 - 1 - k)) := Nat.pow_le_pow_right (by decide) (by omega)
  rw [byteOfValue_eq_div, Nat.div_eq_of_lt (by omega)]

/-- Settles O23: of the sixteen bytes written, the upper eight are zero, because `LEN` has 64 bits. -/
theorem lengthFieldIsBigEndianLen : Obligations.LengthFieldIsBigEndianLen := by
  refine ⟨rfl, fun s => ⟨_, exec_plen s, fun a => ?_⟩⟩
  rw [Memory.read_writeBE]
  rcases Nat.lt_or_ge a 120 with hlow | hhigh
  · have hupper : ¬ (120 ≤ a ∧ a < 128) := by omega
    by_cases hin : 112 ≤ a
    · rw [if_pos (by omega), if_pos ⟨hin, hlow⟩, byteOfValue_upper_half (by omega) s.len.isLt]
    · rw [if_neg (by omega), if_neg (by omega), if_neg hupper]
  · have hlower : ¬ (112 ≤ a ∧ a < 120) := by omega
    by_cases hin : a < 128
    · have hplace : 8 * (16 - 1 - (a - 112)) = 8 * (127 - a) := by omega
      rw [if_pos (by omega), if_neg hlower, if_pos ⟨hhigh, hin⟩, byteOfValue_eq_div, hplace]
    · rw [if_neg (by omega), if_neg hlower, if_neg (by omega)]

/-! ## The Scheduler -/

/-- The model's rotation is the bit vectors' rotation (00_scope.md R8). -/
theorem rotr_eq_rotateRight (x : Word) {n : Nat} (hn : n < 64) : rotr x n = x.rotateRight n := by
  rw [BitVec.rotateRight_eq_rotateRightAux_of_lt hn]
  rfl

/-- `SSIG0` by rotations (41_scheduler.md R111). -/
theorem ssig0_eq (x : Word) : ssig0 x = x.rotateRight 1 ^^^ x.rotateRight 8 ^^^ (x >>> 7) := by
  rw [ssig0, shr, rotr_eq_rotateRight x (by decide), rotr_eq_rotateRight x (by decide)]

/-- `SSIG1` by rotations (41_scheduler.md R112). -/
theorem ssig1_eq (x : Word) : ssig1 x = x.rotateRight 19 ^^^ x.rotateRight 61 ^^^ (x >>> 6) := by
  rw [ssig1, shr, rotr_eq_rotateRight x (by decide), rotr_eq_rotateRight x (by decide)]

/-- Settles O24: a written block answers its sixteen words, each the sum of its bytes at their places. -/
theorem loadWordsReadsBlockBigEndian : Obligations.LoadWordsReadsBlockBigEndian := by
  refine ⟨rfl, fun s f hwritten => ?_⟩
  obtain ⟨w, hload, hword⟩ := loadedSchedule_eq f (le_refl 16) hwritten
  refine ⟨w, exec_ldw_eq_next.mpr ⟨w, hload, rfl⟩, fun j hj => ?_, fun j hj => ?_⟩
  · rw [Fin.getElem_fin, hword j j.isLt, if_pos hj, toNat_be64_range]
  · rw [Fin.getElem_fin, Fin.getElem_fin, hword j j.isLt, if_neg (by omega)]

/-- The loops of `EXP` and `RND` end after index 79 (41_scheduler.md R115, 42_compressor.md R137). -/
theorem add_one_eq_eighty_iff {t : BitVec 7} : t + 1 = 80 ↔ t.toNat = 79 := by
  have := t.isLt
  rw [← BitVec.toNat_inj, BitVec.toNat_add]
  change (t.toNat + 1) % 2 ^ 7 = 80 ↔ t.toNat = 79
  omega

/-- Settles O25: `W[T]` is written with the recurrence's word, and no other index is. -/
theorem expandWritesOneScheduleWord : Obligations.ExpandWritesOneScheduleWord := by
  refine ⟨rfl, fun s ht => ⟨s.w.setIfInBounds s.t.toNat
    (ssig1 s.w[s.t.toNat - 2] + s.w[s.t.toNat - 7] + ssig0 s.w[s.t.toNat - 15] + s.w[s.t.toNat - 16]),
    ?next, ?word, ?others⟩⟩
  case next =>
    simp only [← add_one_eq_eighty_iff]
    exact exec_exp_eq_next.mpr ⟨_, expandedWord_eq ht, rfl⟩
  case word =>
    simp only [← ssig0_eq, ← ssig1_eq]
    rw [Vector.getElem_setIfInBounds_self]
    simp only [BitVec.toNat_add, Nat.mod_add_mod]
  case others =>
    intro j hj
    rw [Fin.getElem_fin, Fin.getElem_fin, Vector.getElem_setIfInBounds_ne j.isLt (Ne.symm hj)]

/-! ## The Compressor -/

/-- `BSIG0` by rotations (42_compressor.md R127). -/
theorem bsig0_eq (x : Word) : bsig0 x = x.rotateRight 28 ^^^ x.rotateRight 34 ^^^ x.rotateRight 39 := by
  rw [bsig0, rotr_eq_rotateRight x (by decide), rotr_eq_rotateRight x (by decide), rotr_eq_rotateRight x (by decide)]

/-- `BSIG1` by rotations (42_compressor.md R128). -/
theorem bsig1_eq (x : Word) : bsig1 x = x.rotateRight 14 ^^^ x.rotateRight 18 ^^^ x.rotateRight 41 := by
  rw [bsig1, rotr_eq_rotateRight x (by decide), rotr_eq_rotateRight x (by decide), rotr_eq_rotateRight x (by decide)]

/-- `CH` with an inclusive disjunction: no bit is selected from both sides (42_compressor.md R125). -/
theorem ch_eq_or (x y z : Word) : ch x y z = (x &&& y) ||| (~~~x &&& z) := by
  apply BitVec.eq_of_getLsbD_eq
  intro i hi
  rw [getLsbD_ch x y z hi, BitVec.getLsbD_or, BitVec.getLsbD_and, BitVec.getLsbD_and, BitVec.getLsbD_not,
    decide_eq_true hi]
  cases x.getLsbD i <;> simp

/-- Settles O26: the copy is the hash state itself. -/
theorem loadWorkingStateCopiesHash : Obligations.LoadWorkingStateCopiesHash :=
  ⟨rfl, fun s => ⟨s.h, fun _ => rfl, exec_ldv s⟩⟩

/-- Settles O27: the eight words of `Round`, with `T1` and `T2` as sums modulo `2^64`. -/
theorem roundUpdatesWorkingState : Obligations.RoundUpdatesWorkingState := by
  refine ⟨rfl, fun s ht => ⟨roundStep s.v (roundConstant s.t.toNat) s.w[s.t.toNat], ?next, ?words⟩⟩
  case next =>
    simp only [← add_one_eq_eighty_iff]
    exact exec_rnd_eq_next.mpr ⟨ht, rfl⟩
  case words =>
    simp only [← bsig0_eq, ← bsig1_eq, ← ch_eq_or, ← maj_eq_or]
    refine ⟨?_, rfl, rfl, rfl, ?_, rfl, rfl, rfl⟩ <;>
      simp [roundStep, BitVec.toNat_add, Nat.add_assoc]

/-- Settles O28: the sum word by word, and the way out of the block by `FINF` and `LW`. -/
theorem addBackLeavesTheBlock : Obligations.AddBackLeavesTheBlock := by
  refine ⟨rfl, fun s => ⟨addBack s.h s.v, fun j => ?_, ?_⟩⟩
  · rw [addBack, Fin.getElem_fin, Vector.getElem_ofFn, BitVec.toNat_add]
  · rw [exec_add]
    cases s.finf <;> cases s.lw <;> rfl

/-! ## The Finalizer -/

/-- Settles O29: the bytes of word `j` stand at `8j .. 8j + 7`, up to the cut of SHA-384. -/
theorem finalizerLoadsDigestRegister : Obligations.FinalizerLoadsDigestRegister := by
  refine ⟨rfl, fun s => ⟨_, exec_fin s, fun j k hk hkept => ?word, fun h384 n hlo hhi => ?tail, fun n hn => ?beyond⟩⟩
  case word =>
    have hin : 8 * j.val + k < 64 := by omega
    have hcut : ¬ (s.alg = .sha384 ∧ 48 ≤ 8 * j.val + k) := by
      rintro ⟨h384, hlo⟩
      rcases hkept with h512 | hj
      · cases h384.symm.trans h512
      · omega
    have hmod : (8 * j.val + k) % 8 = k := by omega
    have hdiv : (8 * j.val + k) / 8 = j.val := by omega
    rw [read_loadedDigest, dif_pos hin, if_neg hcut, byteK_eq_ofNat]
    simp only [hmod, hdiv, Fin.getElem_fin]
  case tail => rw [read_loadedDigest, dif_pos hhi, if_pos ⟨h384, hlo⟩]
  case beyond => rw [read_loadedDigest, dif_neg (by omega)]

end Sys2Proof.Machine
end

section
/-! PROOFS. The host commands with operands (45_commands.md R174 to R176), and what an accepted word can do, once. -/

namespace Sys2Proof.Machine

open Sys2Proof Sys2Proof.Safety

/-! ## The command words -/

/-- `cmd = (op << 8) | arg` as the sum that the opcode map is written in (30_encoding.md R70, R71). -/
theorem commandWord_eq_add (op arg : BitVec 8) :
    commandWord op arg = BitVec.ofNat 16 (op.toNat * 256) + arg.setWidth 16 := by
  have hop := op.isLt
  have harg := arg.isLt
  rw [← BitVec.toNat_inj, toNat_commandWord, BitVec.toNat_add, BitVec.toNat_ofNat, BitVec.toNat_setWidth]
  omega

/-- The word of `DATA b` (30_encoding.md R71). -/
theorem encode_data (b : Byte) : encode (.data b) = .cmd16 (0x0200#16 + b.setWidth 16) :=
  congrArg Code.cmd16 (commandWord_eq_add 0x02#8 b)

/-- The word of `RDDG n` (30_encoding.md R71). -/
theorem encode_rddg (n : Byte) : encode (.rddg n) = .cmd16 (0x0400#16 + n.setWidth 16) :=
  congrArg Code.cmd16 (commandWord_eq_add 0x04#8 n)

/-- The word of `FINAL` (30_encoding.md R71). -/
theorem encode_final : encode .final = .cmd16 finalWord :=
  congrArg Code.cmd16 (commandWord_eq_iff.mpr ⟨by decide, by decide⟩)

/-! ## The order of checks -/

/-- In `ERROR` a command with one legal session state is ignored (30_encoding.md R76, 60_exceptions.md R205). -/
theorem ifSession_of_error {legal : SessionState} {s : State} (body : State → Result) (h : s.st = .error) :
    ifSession legal s body = .next (clearResponse s) := if_pos h

/-- In a session state other than its own a command raises `CMD_SEQUENCE` (30_encoding.md R76). -/
theorem ifSession_of_other {legal : SessionState} {s : State} (body : State → Result) (herr : s.st ≠ .error)
    (h : s.st ≠ legal) : ifSession legal s body = .next (takeFault .cmdSequence s) := by
  rw [ifSession, if_neg herr, if_neg h]

/-! ## `DATA` -/

/-- The byte that fills the buffer (45_commands.md R174). -/
theorem cnt_add_one_eq_iff {c : BitVec 8} : c + 1 = 128 ↔ c.toNat + 1 = 128 := by
  have := c.isLt
  rw [← BitVec.toNat_inj, BitVec.toNat_add]
  change (c.toNat + 1) % 2 ^ 8 = 128 ↔ c.toNat + 1 = 128
  omega

/-- One byte absorbed: it stands at `BUF[CNT]`, `CNT` and `LEN` advance, and a full buffer starts the block
(45_commands.md R174). -/
def byteAbsorbed (b : Byte) (s : State) : State :=
  { s with
    buf := s.buf.write s.cnt.toNat b
    cnt := s.cnt + 1
    len := s.len + 8
    ph := if s.cnt.toNat + 1 = 128 then .ldw else s.ph }

/-- A byte that does not fit the counter (45_commands.md R174, 60_exceptions.md R201). -/
theorem absorbByte_of_full {b : Byte} {s : State} (h : s.len.toNat = 2 ^ 64 - 8) :
    absorbByte b s = .next (takeFault .inputTooLarge s) := if_pos ((lenFull_iff s.len).mpr h)

/-- A byte that fits the counter is absorbed if the buffer has room (45_commands.md R174). -/
theorem absorbByte_eq_next {b : Byte} {s t : State} (h : s.len.toNat ≠ 2 ^ 64 - 8) :
    absorbByte b s = .next t ↔ s.cnt.toNat < 128 ∧ t = byteAbsorbed b s := by
  rw [absorbByte, if_neg (mt (lenFull_iff s.len).mp h), orFault_next_iff]
  simp only [cnt_add_one_eq_iff]
  refine ⟨fun ⟨u, hu, ht⟩ => ?_, fun ⟨hcnt, ht⟩ => ⟨_, appendByte_eq_ok.mpr ⟨hcnt, rfl⟩, ht⟩⟩
  obtain ⟨hcnt, rfl⟩ := appendByte_eq_ok.mp hu
  exact ⟨hcnt, ht⟩

/-- Settles O12, by the order of checks, and then by whether the byte fits the counter. -/
theorem dataAbsorbsByteOrFaults : Obligations.DataAbsorbsByteOrFaults := by
  intro b s
  have hlegal : s.st = .absorb → exec (.data b) s = absorbByte b (clearResponse s) :=
    fun hst => ifSession_of_legal _ hst (by decide)
  refine ⟨encode_data b, fun hst => ifSession_of_error _ hst, fun hst => ?sequence, fun hst hfull => ?full,
    fun hst hroom hcnt => ?absorbed⟩
  case sequence =>
    rcases hst with hst | hst <;> exact ifSession_of_other _ (by simp [hst]) (by simp [hst])
  case full =>
    rw [hlegal hst]
    exact absorbByte_of_full hfull
  case absorbed =>
    refine ⟨_, ?_, Memory.read_write s.buf s.cnt.toNat b⟩
    rw [hlegal hst]
    exact (absorbByte_eq_next (s := clearResponse s) hroom).mpr ⟨hcnt, rfl⟩

/-! ## `FINAL` -/

/-- Settles O13, by the order of checks. -/
theorem finalStartsPaddingOrFaults : Obligations.FinalStartsPaddingOrFaults := by
  intro s
  refine ⟨encode_final, fun hst => ifSession_of_error _ hst, fun hst => ?sequence,
    fun hst => ifSession_of_legal beginFinal hst (by decide)⟩
  case sequence =>
    rcases hst with hst | hst <;> exact ifSession_of_other _ (by simp [hst]) (by simp [hst])

/-! ## `RDDG` -/

/-- An index at or beyond the digest length (45_commands.md R176). -/
theorem respond_of_ge {n : Byte} {s : State} (h : dlen s.alg ≤ n.toNat) :
    respond n s = .next (takeFault .digestIndex s) := if_pos h

/-- An index inside the digest responds with its byte, if that holds a value (45_commands.md R176). -/
theorem respond_eq_next {n : Byte} {s t : State} (h : n.toNat < dlen s.alg) :
    respond n s = .next t ↔ ∃ b, s.dg.read n.toNat = some b ∧ t = { s with rspd := b, rspv := true } := by
  have hin : n.toNat < Space.size .dg := Nat.lt_of_lt_of_le h (dlen_le s.alg)
  rw [respond, if_neg (Nat.not_le.mpr h), orFault_next_iff]
  simp only [readByte_eq_ok, hin, true_and, space_dg]

/-- Settles O14, by the order of checks, and then by whether the index is inside the digest. -/
theorem rddgReturnsDigestByteOrFaults : Obligations.RddgReturnsDigestByteOrFaults := by
  intro n s hn
  have hlegal : s.st = .done → exec (.rddg n) s = respond n (clearResponse s) :=
    fun hst => ifSession_of_legal _ hst (by decide)
  refine ⟨encode_rddg n, fun hst => ifSession_of_error _ hst, fun hst => ?sequence, fun hst h384 hout => ?outside,
    fun hst hin b hb => ?inside⟩
  case sequence =>
    rcases hst with hst | hst <;> exact ifSession_of_other _ (by simp [hst]) (by simp [hst])
  case outside =>
    rw [hlegal hst]
    exact respond_of_ge (by rw [clearResponse_alg, h384]; exact hout)
  case inside =>
    have hlt : n.toNat < dlen s.alg := by
      rcases hin with h512 | hlt
      · rw [h512]
        exact Nat.lt_succ_of_le hn
      · exact Nat.lt_of_lt_of_le hlt (by cases s.alg <;> decide)
    rw [hlegal hst]
    exact (respond_eq_next (s := clearResponse s) hlt).mpr ⟨b, hb, rfl⟩

/-! ## What an accepted word can do -/

/-- The ways of an accepted word (30_encoding.md R76): a session is opened; in `ERROR` only the response flag is cleared; a
fault is taken; or the command's own effect happens in its own session state. -/
inductive CommandStep (s : State) : BitVec 16 → State → Prop where
  | init (alg : Alg) : CommandStep s (initWord alg) (startSession alg s)
  | ignored {cmd : BitVec 16} (hst : s.st = .error) : CommandStep s cmd (clearResponse s)
  | fault {cmd : BitVec 16} {c : ErrCode} (hc : HasCause c) (hst : s.st ≠ .error) : CommandStep s cmd (takeFault c s)
  | data {b : Byte} (hst : s.st = .absorb) (hroom : s.len.toNat ≠ 2 ^ 64 - 8) (hcnt : s.cnt.toNat < 128) :
      CommandStep s (dataWord b) (byteAbsorbed b (clearResponse s))
  | final (hst : s.st = .absorb) :
      CommandStep s finalWord { s with rspv := false, finf := true, lw := false, ph := .p80 }
  | rddg {cmd : BitVec 16} {n b : Byte} (hst : s.st = .done) (hn : n.toNat < dlen s.alg)
      (hb : s.dg.read n.toNat = some b) : CommandStep s cmd { s with rspd := b, rspv := true }

/-- The order of checks leads to one of those ways if the command's own effect does. -/
theorem CommandStep.of_ifSession {legal : SessionState} {cmd : BitVec 16} {s t : State} {body : State → Result}
    (hbody : s.st = legal → s.st ≠ .error → body (clearResponse s) = .next t → CommandStep s cmd t)
    (h : ifSession legal s body = .next t) : CommandStep s cmd t := by
  obtain ⟨hst, rfl⟩ | ⟨hst, -, rfl⟩ | ⟨hst, hlegal, heff⟩ := ifSession_eq_next h
  · exact .ignored hst
  · exact .fault (.inr (.inr (.inl rfl))) hst
  · exact hbody hlegal hst heff

/-- The effect of `DATA b` is a fault or an absorbed byte. -/
theorem CommandStep.of_absorbByte {b : Byte} {s t : State} (hst : s.st = .absorb) (herr : s.st ≠ .error)
    (h : absorbByte b (clearResponse s) = .next t) : CommandStep s (dataWord b) t := by
  by_cases hfull : s.len.toNat = 2 ^ 64 - 8
  · cases (absorbByte_of_full (s := clearResponse s) hfull).symm.trans h
    exact .fault (.inl rfl) herr
  · obtain ⟨hcnt, rfl⟩ := (absorbByte_eq_next (s := clearResponse s) hfull).mp h
    exact .data hst hfull hcnt

/-- The effect of `RDDG n` is a fault or a response. -/
theorem CommandStep.of_respond {cmd : BitVec 16} {n : Byte} {s t : State} (hst : s.st = .done) (herr : s.st ≠ .error)
    (h : respond n (clearResponse s) = .next t) : CommandStep s cmd t := by
  rcases Nat.lt_or_ge n.toNat (dlen s.alg) with hlt | hge
  · obtain ⟨b, hb, rfl⟩ := (respond_eq_next (s := clearResponse s) hlt).mp h
    exact .rddg hst hlt hb
  · cases (respond_of_ge (s := clearResponse s) hge).symm.trans h
    exact .fault (.inr (.inr (.inr rfl))) herr

/-- The acceptance of a word goes one of those ways. -/
theorem CommandStep.of_acceptWord {cmd : BitVec 16} {s t : State} (h : acceptWord cmd s = .next t) :
    CommandStep s cmd t := by
  cases hdec : decodeCommand cmd with
  | error e =>
    rw [acceptWord, hdec] at h
    cases h
    by_cases hst : s.st = .error
    · exact acceptIllFormed_of_error hst ▸ .ignored hst
    · exact acceptIllFormed_of_ne_error hst ▸ .fault (.inr (.inl rfl)) hst
  | ok i =>
    rw [acceptWord_of_decode hdec] at h
    obtain ⟨-, henc⟩ := decodeCommand_eq_ok_iff.mp hdec
    cases i
    case init512 =>
      cases encode_init512.symm.trans henc
      cases h
      exact .init .sha512
    case init384 =>
      cases encode_init384.symm.trans henc
      cases h
      exact .init .sha384
    case data b =>
      cases henc
      exact .of_ifSession .of_absorbByte h
    case final =>
      cases encode_final.symm.trans henc
      exact .of_ifSession (fun hst _ heff => by cases heff; exact .final hst) h
    case rddg n => exact .of_ifSession .of_respond h
    case p80 | pz | plen | ldw | exp | ldv | rnd | add | fin => cases henc

end Sys2Proof.Machine
end

section
/-! PROOFS. The step (00_scope.md R14): what it runs, what reset leaves, what every micro-operation does once and the
sequencer's table (42_compressor.md R138). -/

namespace Sys2Proof.Machine

open Sys2Proof Sys2Proof.Safety

/-! ## What a step runs -/

/-- A busy core has a micro-operation to run (30_encoding.md R77). -/
theorem exists_fetchUop {s : State} (hbusy : s.ph ≠ .idle) : ∃ i, fetchUop s = .ok i := by
  cases hi : fetchUop s with
  | ok i => exact ⟨i, rfl⟩
  | error e => exact absurd ((fetchUop_eq_error s).mp ⟨e, hi⟩) hbusy

/-- Without reset an idle core accepts the word that is presented (45_commands.md R170). -/
theorem step_of_presented {s : State} (hrst : NotReset s) (hidle : s.ph = .idle)
    (hvalid : (currentPins s).cmdValid = true) : step s = acceptWord (currentPins s).cmd (dropPins s) :=
  stepWith_eq_acceptWord hrst hvalid hidle

/-- Without reset an idle core to which nothing is presented keeps its state (60_exceptions.md R212). -/
theorem step_of_nothing_presented {s : State} (hrst : NotReset s) (hidle : s.ph = .idle)
    (hvalid : (currentPins s).cmdValid = false) : step s = .next (dropPins s) := by
  unfold NotReset at hrst
  obtain ⟨h, -⟩ | ⟨-, h, -⟩ | ⟨-, -, h, -⟩ | ⟨-, -, -, h⟩ := stepWith_cases (currentPins s) (dropPins s)
  · exact absurd h (by simp [hrst])
  · exact absurd hidle h
  · exact absurd h (by simp [hvalid])
  · exact h

/-- Reset leaves the reset state of the next epoch (70_reset_and_hazards.md R230). -/
theorem step_of_reset {s : State} (hrst : (currentPins s).rst = true) :
    step s = .next (State.afterReset (s.epoch + 1) s.inputs.tail) := by
  rw [step, stepWith, if_pos hrst]
  rfl

/-- Settles O6, in the two cases of what a step fetches. -/
theorem stepRunsTheDecodedInstruction : Obligations.StepRunsTheDecodedInstruction := by
  refine fun s i hrst => ⟨step_of_fetchUop hrst, fun hidle hvalid hdec => ?_⟩
  rw [step_of_presented hrst hidle hvalid, acceptWord_of_decode hdec]

/-- Settles O7: both steps run the micro-operation that `PH` names, from the same state without the sample. -/
theorem busyCoreIgnoresTheCommandPort : Obligations.BusyCoreIgnoresTheCommandPort := by
  intro s p q rest hbusy hp hq
  obtain ⟨i, hi⟩ := exists_fetchUop hbusy
  have hstep : ∀ r : Pins, r.rst = false →
      step { s with inputs := r :: rest } = exec i { s with inputs := rest } :=
    fun r hr => step_of_fetchUop (s := { s with inputs := r :: rest }) hr hi
  rw [hstep p hp, hstep q hq]

/-- Settles O8: of the ways a step can go, only the one that drops the port sample is left. -/
theorem quietReadyCoreRetainsState : Obligations.QuietReadyCoreRetainsState :=
  fun _ => step_of_nothing_presented

/-- `STATUS` after a reset is zero: every field of it is at code 0 (70_reset_and_hazards.md R231). -/
theorem statusWord_afterReset (n : Nat) (ps : List Pins) : statusWord (State.afterReset n ps) = 0x0000#16 := by
  apply BitVec.eq_of_toNat_eq
  simp [toNat_statusWord, ErrCode.code, Alg.code, SessionState.code]

/-- Settles O9: the next state is `State.afterReset`, whose registers and derived words are the table's. -/
theorem resetOverridesEverything : Obligations.ResetOverridesEverything :=
  fun _ hrst => ⟨_, step_of_reset hrst, rfl, rfl, rfl, rfl, rfl, rfl, rfl, rfl, rfl, rfl, fun _ => rfl, fun _ => rfl,
    statusWord_afterReset _ _, rfl, rfl⟩

/-- Settles O10: the registers by the definition of the reset state, the step as that of a ready core with quiet ports. -/
theorem resetStateIsTheTable : Obligations.ResetStateIsTheTable :=
  ⟨rfl, rfl, rfl, rfl, rfl, rfl, rfl, rfl, rfl, rfl, fun _ => rfl, fun _ => rfl,
    congrArg (Ports.mk true false State.reset.rspd) (statusWord_afterReset 0 []), step_idle_of_quiet rfl rfl⟩

/-! ## What a micro-operation does -/

/-- The next states of the micro-operations (30_encoding.md R77), each with the phase that names it and what its reads
found. -/
inductive UopStep (s : State) : State → Prop where
  | p80 (hph : s.ph = .p80) (hcnt : s.cnt.toNat < 128) :
      UopStep s { s with buf := s.buf.write s.cnt.toNat 0x80#8, cnt := s.cnt + 1, ph := .pz }
  | pzToLength (hph : s.ph = .pz) (hcnt : s.cnt.toNat ≤ 112) :
      UopStep s { s with buf := s.buf.zeroRange s.cnt.toNat 112, cnt := 112, ph := .plen }
  | pzToBlockEnd (hph : s.ph = .pz) (hcnt : 112 < s.cnt.toNat) :
      UopStep s { s with buf := s.buf.zeroRange s.cnt.toNat 128, cnt := 128, ph := .ldw }
  | plen (hph : s.ph = .plen) :
      UopStep s { s with buf := s.buf.writeBE 112 16 s.len.toNat, cnt := 128, lw := true, ph := .ldw }
  | ldw (hph : s.ph = .ldw) (w : Vector Word 80) : UopStep s { s with w := w, t := 16, ph := .exp }
  | exp (hph : s.ph = .exp) (ht : 16 ≤ s.t.toNat ∧ s.t.toNat < 80) (w : Vector Word 80) :
      UopStep s { s with w := w, t := s.t + 1, ph := if s.t.toNat = 79 then .ldv else .exp }
  | ldv (hph : s.ph = .ldv) : UopStep s { s with v := s.h, t := 0, ph := .rnd }
  | rnd (hph : s.ph = .rnd) (ht : s.t.toNat < 80) (v : Vector Word 8) :
      UopStep s { s with v := v, t := s.t + 1, ph := if s.t.toNat = 79 then .add else .rnd }
  | add (hph : s.ph = .add) :
      UopStep s { s with h := addBack s.h s.v, cnt := 0, t := 0, ph := afterBlock s.finf s.lw }
  | fin (hph : s.ph = .fin) :
      UopStep s { s with
        dg := loadedDigest s.alg s.h s.dg, st := .done, finf := false, lw := false, ph := .idle }

/-- The micro-operation that `PH` names does one of those steps. -/
theorem UopStep.of_exec {s t : State} {i : Instr} (hi : fetchUop s = .ok i) (h : exec i s = .next t) : UopStep s t := by
  unfold fetchUop at hi
  cases hph : s.ph <;> rw [hph] at hi <;> cases hi
  case p80 =>
    obtain ⟨hcnt, rfl⟩ := exec_p80_eq_next.mp h
    exact .p80 hph hcnt
  case pz =>
    rcases Nat.lt_or_ge 112 s.cnt.toNat with hgt | hle
    · cases (exec_pz_of_gt hgt).symm.trans h
      exact .pzToBlockEnd hph hgt
    · cases (exec_pz_of_le hle).symm.trans h
      exact .pzToLength hph hle
  case plen =>
    cases (exec_plen s).symm.trans h
    exact .plen hph
  case ldw =>
    obtain ⟨w, -, rfl⟩ := exec_ldw_eq_next.mp h
    exact .ldw hph w
  case exp =>
    obtain ⟨x, hx, rfl⟩ := exec_exp_eq_next.mp h
    simp only [hph, add_one_eq_eighty_iff]
    exact .exp hph (expandedWord_range hx) _
  case ldv =>
    cases h
    exact .ldv hph
  case rnd =>
    obtain ⟨hlt, rfl⟩ := exec_rnd_eq_next.mp h
    simp only [hph, add_one_eq_eighty_iff]
    exact .rnd hph hlt _
  case add =>
    cases h
    exact .add hph
  case fin =>
    cases h
    exact .fin hph

/-- Every way in which a step answers (00_scope.md R14). -/
theorem step_eq_next_cases {s t : State} (h : step s = .next t) :
    t = State.afterReset (s.epoch + 1) s.inputs.tail ∨
    (NotReset s ∧ s.ph ≠ .idle ∧ UopStep (dropPins s) t) ∨
    (NotReset s ∧ s.ph = .idle ∧ (currentPins s).cmdValid = true ∧
      CommandStep (dropPins s) (currentPins s).cmd t) ∨
    (NotReset s ∧ s.ph = .idle ∧ t = dropPins s) := by
  obtain ⟨-, he⟩ | ⟨hrst, hbusy, i, hi, he⟩ | ⟨hrst, hidle, hvalid, he⟩ | ⟨hrst, hidle, -, he⟩ :=
    stepWith_cases (currentPins s) (dropPins s) <;> rw [step, he] at h
  · cases h
    exact .inl rfl
  · exact .inr (.inl ⟨hrst, hbusy, .of_exec hi h⟩)
  · exact .inr (.inr (.inl ⟨hrst, hidle, hvalid, .of_acceptWord h⟩))
  · cases h
    exact .inr (.inr (.inr ⟨hrst, hidle, rfl⟩))

/-- Without reset a busy core does a micro-operation. -/
theorem UopStep.of_step {s t : State} (hrst : NotReset s) (hbusy : s.ph ≠ .idle) (h : step s = .next t) :
    UopStep (dropPins s) t := by
  obtain ⟨i, hi⟩ := exists_fetchUop hbusy
  rw [step_of_fetchUop hrst hi] at h
  exact .of_exec (s := dropPins s) hi h

/-- Settles O20, by the frame of the micro-operations and of the response register. -/
theorem microOperationsRaiseNothing : Obligations.MicroOperationsRaiseNothing := by
  intro s t hbusy hrst h
  obtain ⟨i, hi⟩ := exists_fetchUop hbusy
  rw [step_of_fetchUop hrst hi] at h
  obtain ⟨herr, halg, hlen, hst⟩ := uop_frame (s := dropPins s) hi h
  obtain ⟨hrspv, hrspd⟩ := uop_holds_response (s := dropPins s) hi h
  exact ⟨herr, hrspv, hrspd, halg, hlen, hst⟩

/-! ## The sequencer -/

/-- The registers that steer the sequencer (10_state.md R31 to R33, R37, R38). -/
structure Position where
  ph : Phase
  cnt : BitVec 8
  t : BitVec 7
  finf : Bool
  lw : Bool

/-- The sequencer's position in a state. -/
def position (s : State) : Position := ⟨s.ph, s.cnt, s.t, s.finf, s.lw⟩

/-- The sequencer's table (40_padder.md R97, 42_compressor.md R138): the position after a micro-operation, which depends on
the position before it alone. -/
def nextPosition (p : Position) : Position :=
  match p.ph with
  | .idle => p
  | .p80 => { p with ph := .pz, cnt := p.cnt + 1 }
  | .pz => if p.cnt.toNat ≤ 112 then { p with ph := .plen, cnt := 112 } else { p with ph := .ldw, cnt := 128 }
  | .plen => { p with ph := .ldw, cnt := 128, lw := true }
  | .ldw => { p with ph := .exp, t := 16 }
  | .exp => { p with ph := if p.t.toNat = 79 then .ldv else .exp, t := p.t + 1 }
  | .ldv => { p with ph := .rnd, t := 0 }
  | .rnd => { p with ph := if p.t.toNat = 79 then .add else .rnd, t := p.t + 1 }
  | .add => { p with ph := afterBlock p.finf p.lw, cnt := 0, t := 0 }
  | .fin => { p with ph := .idle, finf := false, lw := false }

/-- Every micro-operation moves the sequencer by its table. -/
theorem UopStep.position_eq {s t : State} (h : UopStep s t) : position t = nextPosition (position s) := by
  cases h
  case pzToLength hph hcnt => simp [position, nextPosition, hph, hcnt]
  case pzToBlockEnd hph hcnt => simp [position, nextPosition, hph, Nat.not_le.mpr hcnt]
  case exp hph _ _ | rnd hph _ _ => simp [position, nextPosition, hph]
  case p80 hph _ | ldw hph _ => simp [position, nextPosition, hph]
  case plen hph | ldv hph | add hph | fin hph => simp [position, nextPosition, hph]

/-- The indices of `EXP` and `RND` count up to 79 and on to 80. -/
theorem UopStep.loop_index {s t : State} (h : UopStep s t) (hloop : s.ph = .exp ∨ s.ph = .rnd) :
    s.t.toNat < 80 ∧ t.t.toNat = s.t.toNat + 1 := by
  cases h
  case exp ht _ => exact ⟨ht.2, toNat_add_one (by omega)⟩
  case rnd ht _ => exact ⟨ht, toNat_add_one (by omega)⟩
  case p80 hph _ | pzToLength hph _ | pzToBlockEnd hph _ | ldw hph _ => simp [hph] at hloop
  case plen hph | ldv hph | add hph | fin hph => simp [hph] at hloop

/-- The block is left to `IDLE`, `PZ` or `FIN`. -/
theorem afterBlock_ne_ldw (finf lw : Bool) : afterBlock finf lw ≠ .ldw := by
  cases finf <;> cases lw <;> decide

/-- A micro-operation that leads to `LDW` is `PZ` or `PLEN` (40_padder.md R97). -/
theorem UopStep.ldw_entry {s t : State} (h : UopStep s t) (hldw : t.ph = .ldw) : s.ph = .pz ∨ s.ph = .plen := by
  cases h
  case pzToBlockEnd hph _ => exact .inl hph
  case plen hph => exact .inr hph
  case add => exact absurd hldw (afterBlock_ne_ldw _ _)
  case exp | rnd =>
    dsimp only at hldw
    split at hldw <;> cases hldw
  case p80 | pzToLength | ldw | ldv | fin => cases hldw

/-- An accepted word that leads to `LDW` is a `DATA` whose byte fills the buffer (45_commands.md R174). -/
theorem CommandStep.ldw_entry {s t : State} {cmd : BitVec 16} (h : CommandStep s cmd t) (hidle : s.ph = .idle)
    (hldw : t.ph = .ldw) : ∃ b, cmd = dataWord b ∧ s.cnt = 127 := by
  cases h
  case data b hst hroom hcnt =>
    refine ⟨b, rfl, ?_⟩
    by_contra hne
    have hmore : ¬ s.cnt.toNat + 1 = 128 := fun h => hne (BitVec.eq_of_toNat_eq (Nat.succ_injective h))
    have hkept : (byteAbsorbed b (clearResponse s)).ph = s.ph := if_neg hmore
    cases (hkept.trans hidle).symm.trans hldw
  case init | ignored | fault | rddg => cases hidle.symm.trans hldw
  case final => cases hldw

/-- Settles O30: the table entry of each phase, and for the entries to `LDW` the ways in which a step can go. -/
theorem sequencerFollowsItsTable : Obligations.SequencerFollowsItsTable := by
  refine ⟨fun s t hrst h => ?table, fun s t h hldw => ?entry⟩
  case table =>
    have uop (hbusy : s.ph ≠ .idle) : UopStep (dropPins s) t := .of_step hrst hbusy h
    have table (hbusy : s.ph ≠ .idle) : position t = nextPosition (position s) := (uop hbusy).position_eq
    refine ⟨fun hph => ?p80, fun hph => ?pz, fun hph => ?plen, fun hph => ?ldw, fun hph => ?exp, fun hph => ?ldv,
      fun hph => ?rnd, fun hph => ?add, fun hph => ?fin⟩ <;>
      have hpos := table (by rw [hph]; decide)
    case p80 | plen | fin => simpa [nextPosition, position, hph] using congrArg Position.ph hpos
    case pz =>
      have hto := congrArg Position.ph hpos
      simp only [nextPosition, position, hph] at hto
      rw [hto]
      split <;> rfl
    case ldw | ldv =>
      simp only [nextPosition, position, hph, Position.mk.injEq] at hpos
      obtain ⟨hto, -, hindex, -⟩ := hpos
      exact ⟨hto, hindex⟩
    case exp | rnd =>
      obtain ⟨hlt, hindex⟩ := (uop (by rw [hph]; decide)).loop_index (by simp [hph])
      have hto := congrArg Position.ph hpos
      simp only [nextPosition, position, hph] at hto
      refine ⟨hto.trans ?_, hindex⟩
      rw [dropPins_t] at hlt
      by_cases hlast : s.t.toNat = 79
      · rw [if_pos hlast, if_neg (by omega)]
      · rw [if_neg hlast, if_pos (by omega)]
    case add =>
      have hto := congrArg Position.ph hpos
      simp only [nextPosition, position, hph] at hto
      rw [hto, afterBlock_eq]
  case entry =>
    obtain rfl | ⟨-, -, huop⟩ | ⟨hrst, hidle, hvalid, hcmd⟩ | ⟨-, hidle, rfl⟩ := step_eq_next_cases h
    · cases hldw
    · obtain hpz | hplen := huop.ldw_entry hldw
      · exact .inl hpz
      · exact .inr (.inl hplen)
    · obtain ⟨b, hword, hcnt⟩ := hcmd.ldw_entry hidle hldw
      exact .inr (.inr ⟨b, ⟨hrst, hidle, hvalid, hword⟩, hcnt⟩)
    · cases hidle.symm.trans hldw

end Sys2Proof.Machine
end

section
/-! PROOFS. The invariant of the whole machine (10_state.md R30 to R39, R45): it holds after every reset, and every
micro-operation and every accepted word keeps it. -/

namespace Sys2Proof.Machine

open Sys2Proof Sys2Proof.Safety

/-! ## Written bytes -/

/-- A byte written at the end of the written bytes extends them by one. -/
theorem writtenBelow_write {m : Memory} {n : Nat} (h : WrittenBelow m n) (b : Byte) :
    WrittenBelow (m.write n b) (n + 1) := by
  intro a ha
  rw [Memory.read_write]
  split
  · rfl
  · exact h a (by omega)

/-- A zero fill from the end of the written bytes extends them. -/
theorem writtenBelow_zeroRange {m : Memory} {lo : Nat} (h : WrittenBelow m lo) (hi : Nat) :
    WrittenBelow (m.zeroRange lo hi) hi := by
  intro a ha
  rw [Memory.read_zeroRange]
  split
  · rfl
  · exact h a (by omega)

/-- A number written at the end of the written bytes extends them. -/
theorem writtenBelow_writeBE {m : Memory} {lo : Nat} (h : WrittenBelow m lo) (n v : Nat) :
    WrittenBelow (m.writeBE lo n v) (lo + n) := by
  intro a ha
  rw [Memory.read_writeBE]
  split
  · rfl
  · exact h a (by omega)

/-- With no index below 0 nothing needs to be written. -/
theorem writtenBelow_zero (m : Memory) : WrittenBelow m 0 := fun _ ha => absurd ha (Nat.not_lt_zero _)

/-! ## Reset -/

/-- The coming port samples are no part of the invariant. -/
theorem inv_with_inputs {s : State} (h : Inv s) (inputs : List Pins) : Inv { s with inputs := inputs } := { h with }

/-- The invariant holds after every reset, whatever the unspecified storage holds (70_reset_and_hazards.md R231). -/
theorem inv_afterReset (n : Nat) (ps : List Pins) : Inv (State.afterReset n ps) where
  bufOk := ⟨rfl, nofun⟩
  dgOk := ⟨rfl, nofun⟩
  lenBytes := rfl
  position := ⟨Nat.zero_le _, rfl, rfl, rfl, nofun⟩
  bufWritten := writtenBelow_zero _
  busyAbsorb := fun hbusy => absurd rfl hbusy
  errExact := ⟨fun herr => absurd rfl herr, nofun⟩
  noAllocation := nofun
  responseDone := nofun
  digestHeld := nofun
  tailZero := nofun

/-- Settles O32: the state at reset is the one after the reset numbered 0. -/
theorem invariantHoldsAtReset : Obligations.InvariantHoldsAtReset := inv_afterReset 0 []

/-! ## Micro-operations -/

/-- A micro-operation is done by a busy core. -/
theorem UopStep.busy {s t : State} (h : UopStep s t) : s.ph ≠ .idle := by
  cases h <;> simp_all

/-- Below a full buffer `CNT` counts without wrapping (10_state.md R31). -/
theorem toNat_cnt_add_one {c : BitVec 8} (h : c.toNat < 128) : (c + 1).toNat = c.toNat + 1 := by
  rw [BitVec.toNat_add]
  exact Nat.mod_eq_of_lt (by omega : c.toNat + 1 < 256)

/-- `EXP` inside its loop goes on in it or to `LDV` with `T = 80` (41_scheduler.md R114). -/
theorem positionOk_after_exp {s t : State} (hblock : InBlock t) (hlo : 16 ≤ s.t.toNat) (hhi : s.t.toNat ≤ 79)
    (ht : t.t = s.t + 1) (hph : t.ph = if s.t.toNat = 79 then .ldv else .exp) : PositionOk t := by
  unfold PositionOk
  by_cases hlast : s.t.toNat = 79
  · rw [hph, if_pos hlast]
    exact ⟨hblock, ht.trans (add_one_eq_eighty_iff.mpr hlast)⟩
  · have hsucc : t.t.toNat = s.t.toNat + 1 := by rw [ht, toNat_add_one (by omega)]
    rw [hph, if_neg hlast]
    exact ⟨hblock, by omega, by omega⟩

/-- `RND` inside its loop goes on in it or to `ADD` with `T = 80` (42_compressor.md R135). -/
theorem positionOk_after_rnd {s t : State} (hblock : InBlock t) (hhi : s.t.toNat ≤ 79) (ht : t.t = s.t + 1)
    (hph : t.ph = if s.t.toNat = 79 then .add else .rnd) : PositionOk t := by
  unfold PositionOk
  by_cases hlast : s.t.toNat = 79
  · rw [hph, if_pos hlast]
    exact ⟨hblock, ht.trans (add_one_eq_eighty_iff.mpr hlast)⟩
  · have hsucc : t.t.toNat = s.t.toNat + 1 := by rw [ht, toNat_add_one (by omega)]
    rw [hph, if_neg hlast]
    exact ⟨hblock, by omega⟩

/-- `ADD` leaves the block with an empty buffer: to a ready core after a block that `DATA` filled, else on with the padding
or to `FIN` (42_compressor.md R136). -/
theorem positionOk_after_add {s t : State} (hblock : InBlock s) (hcnt : t.cnt = 0) (ht : t.t = 0)
    (hlen : t.len = s.len) (hfinf : t.finf = s.finf) (hlw : t.lw = s.lw) (hph : t.ph = afterBlock s.finf s.lw) :
    PositionOk t := by
  obtain ⟨-, hlast, hwhole⟩ := hblock
  have hempty : t.cnt.toNat = 0 := by rw [hcnt]; rfl
  unfold PositionOk
  cases hf : s.finf with
  | false =>
    have hl : s.lw = false := by
      by_contra hl
      cases hf.symm.trans (hlast (Bool.eq_true_of_not_eq_false hl))
    rw [hph, hf, hl]
    refine ⟨by omega, ht, hfinf.trans hf, hlw.trans hl, fun _ => ?_⟩
    rw [CountAgrees, hempty, hlen, hwhole hf]
  | true =>
    cases hl : s.lw with
    | false =>
      rw [hph, hf, hl]
      exact ⟨by omega, ht, hfinf.trans hf, hlw.trans hl⟩
    | true =>
      rw [hph, hf, hl]
      exact ⟨hcnt, ht, hfinf.trans hf, hlw.trans hl⟩

/-- Every micro-operation keeps the invariant. -/
theorem inv_of_uopStep {s t : State} (h : Inv s) (hstep : UopStep s t) : Inv t := by
  have hst : s.st = .absorb := h.busyAbsorb hstep.busy
  have hpos := h.position
  unfold PositionOk at hpos
  cases hstep
  case p80 hph hcnt =>
    rw [hph] at hpos
    obtain ⟨-, ht, hfinf, hlw, -⟩ := hpos
    have hsucc := toNat_cnt_add_one hcnt
    exact { h with
      bufOk := spaceOk_write h.bufOk hcnt _
      position := ⟨by simp only [hsucc]; omega, ht, hfinf, hlw⟩
      bufWritten := by simpa only [hsucc] using writtenBelow_write h.bufWritten _
      busyAbsorb := fun _ => hst }
  case pzToLength hph hcnt =>
    rw [hph] at hpos
    obtain ⟨-, ht, hfinf, hlw⟩ := hpos
    exact { h with
      bufOk := spaceOk_zeroRange h.bufOk _ _ (by decide)
      position := ⟨rfl, ht, hfinf, hlw⟩
      bufWritten := writtenBelow_zeroRange h.bufWritten 112
      busyAbsorb := fun _ => hst }
  case pzToBlockEnd hph hcnt =>
    rw [hph] at hpos
    obtain ⟨-, ht, hfinf, hlw⟩ := hpos
    exact { h with
      bufOk := spaceOk_zeroRange h.bufOk _ _ (le_refl 128)
      position := ⟨⟨rfl, fun _ => hfinf, fun hf => absurd hf (by simp [hfinf])⟩, ht⟩
      bufWritten := writtenBelow_zeroRange h.bufWritten 128
      busyAbsorb := fun _ => hst }
  case plen hph =>
    rw [hph] at hpos
    obtain ⟨hcnt, ht, hfinf, -⟩ := hpos
    have hwritten : WrittenBelow s.buf 112 := by simpa [hcnt] using h.bufWritten
    have hbuf : SpaceOk (s.buf.writeBE 112 16 s.len.toNat) 128 := spaceOk_writeBE h.bufOk _ _ _ (by decide)
    have hfull : WrittenBelow (s.buf.writeBE 112 16 s.len.toNat) 128 := writtenBelow_writeBE hwritten 16 _
    -- The elaborator would evaluate the sixteen writes; only these two facts about them matter.
    generalize s.buf.writeBE 112 16 s.len.toNat = m at hbuf hfull ⊢
    exact { h with
      bufOk := hbuf
      position := ⟨⟨rfl, fun _ => hfinf, fun hf => absurd hf (by simp [hfinf])⟩, ht⟩
      bufWritten := hfull
      busyAbsorb := fun _ => hst }
  case ldw hph w =>
    rw [hph] at hpos
    obtain ⟨hblock, -⟩ := hpos
    exact { h with position := ⟨hblock, le_refl 16, (by decide : 16 ≤ 79)⟩, busyAbsorb := fun _ => hst }
  case exp hph ht w =>
    rw [hph] at hpos
    obtain ⟨hblock, hlo, hhi⟩ := hpos
    exact { h with position := positionOk_after_exp hblock hlo hhi rfl rfl, busyAbsorb := fun _ => hst }
  case ldv hph =>
    rw [hph] at hpos
    obtain ⟨hblock, -⟩ := hpos
    exact { h with position := ⟨hblock, Nat.zero_le 79⟩, busyAbsorb := fun _ => hst }
  case rnd hph ht v =>
    rw [hph] at hpos
    obtain ⟨hblock, hhi⟩ := hpos
    exact { h with position := positionOk_after_rnd hblock hhi rfl rfl, busyAbsorb := fun _ => hst }
  case add hph =>
    rw [hph] at hpos
    obtain ⟨hblock, -⟩ := hpos
    exact { h with
      position := positionOk_after_add hblock rfl rfl rfl rfl rfl rfl
      bufWritten := writtenBelow_zero _
      busyAbsorb := fun _ => hst
      digestHeld := fun hd => absurd (hst.symm.trans hd) (by decide) }
  case fin hph =>
    rw [hph] at hpos
    obtain ⟨hcnt, ht, -, -⟩ := hpos
    have herr : s.err = .none := by
      by_contra herr
      cases hst.symm.trans (h.errExact.mp herr)
    exact { h with
      dgOk := spaceOk_loadedDigest s.alg s.h h.dgOk
      position := ⟨by simp [hcnt], ht, rfl, rfl, nofun⟩
      busyAbsorb := fun hbusy => absurd rfl hbusy
      errExact := ⟨fun hne => absurd herr hne, nofun⟩
      responseDone := fun _ => rfl
      digestHeld := fun _ n hn => read_loadedDigest_eq_finalize s.alg s.h s.dg hn
      tailZero := fun _ halg n hlo hhi => by
        rw [read_loadedDigest, dif_pos hhi]
        exact if_pos ⟨halg, hlo⟩ }

/-! ## Accepted words -/

/-- Opening a session gives the invariant's facts about an empty one, and keeps the byte spaces in order. -/
theorem inv_startSession {s : State} (h : Inv s) (hidle : s.ph = .idle) (alg : Alg) : Inv (startSession alg s) where
  bufOk := h.bufOk
  dgOk := h.dgOk
  lenBytes := rfl
  position := by
    unfold PositionOk
    rw [startSession_ph, hidle]
    exact ⟨Nat.zero_le _, rfl, rfl, rfl, fun _ => by simp [CountAgrees]⟩
  bufWritten := writtenBelow_zero _
  busyAbsorb := fun _ => rfl
  errExact := ⟨fun herr => absurd rfl herr, nofun⟩
  noAllocation := nofun
  responseDone := nofun
  digestHeld := nofun
  tailZero := nofun

/-- Taking a fault leaves a ready core without session. -/
theorem inv_takeFault {s : State} (h : Inv s) (hidle : s.ph = .idle) {c : ErrCode} (hc : HasCause c) :
    Inv (takeFault c s) := by
  have hpos := h.position
  unfold PositionOk at hpos
  rw [hidle] at hpos
  obtain ⟨hcnt, ht, hfinf, hlw, -⟩ := hpos
  exact { h with
    position := by
      unfold PositionOk
      rw [takeFault_ph, hidle]
      exact ⟨hcnt, ht, hfinf, hlw, nofun⟩
    busyAbsorb := fun hbusy => absurd hidle hbusy
    errExact := ⟨fun _ => rfl, fun _ hnone => by rcases hc with rfl | rfl | rfl | rfl <;> cases hnone⟩
    noAllocation := fun halloc => not_hasCause_allocationFailure (halloc ▸ hc)
    responseDone := nofun
    digestHeld := nofun
    tailZero := nofun }

/-- One more absorbed byte: `CNT` stays `(LEN / 8) mod 128`, or the buffer is full at a multiple of 128 bytes
(10_state.md R31). -/
theorem inv_byteAbsorbed {s : State} (h : Inv s) (hidle : s.ph = .idle) (hst : s.st = .absorb)
    (hroom : s.len.toNat ≠ 2 ^ 64 - 8) (hcnt : s.cnt.toNat < 128) (b : Byte) :
    Inv (byteAbsorbed b (clearResponse s)) := by
  have hpos := h.position
  unfold PositionOk at hpos
  rw [hidle] at hpos
  obtain ⟨-, ht, hfinf, hlw, hagrees⟩ := hpos
  have hagrees := hagrees hst
  unfold CountAgrees at hagrees
  have hsucc := toNat_cnt_add_one hcnt
  have hlen := len_add_eight h.lenBytes hroom
  have hbytes := h.lenBytes
  exact { h with
    bufOk := spaceOk_write h.bufOk hcnt _
    lenBytes := by
      change (s.len + 8).toNat % 8 = 0
      omega
    position := by
      change PositionOk { clearResponse s with
        buf := _, cnt := s.cnt + 1, len := s.len + 8, ph := if s.cnt.toNat + 1 = 128 then .ldw else s.ph }
      unfold PositionOk
      by_cases hfull : s.cnt.toNat + 1 = 128
      · rw [if_pos hfull]
        refine ⟨⟨cnt_add_one_eq_iff.mpr hfull, fun hl => absurd hl (by simp [hlw]), fun _ => ?_⟩, ht⟩
        dsimp only
        omega
      · rw [if_neg hfull, hidle]
        refine ⟨?_, ht, hfinf, hlw, fun _ => ?_⟩
        · dsimp only
          omega
        · simp only [CountAgrees]
          omega
    bufWritten := by
      change WrittenBelow (s.buf.write s.cnt.toNat b) (s.cnt + 1).toNat
      rw [hsucc]
      exact writtenBelow_write h.bufWritten b
    busyAbsorb := fun _ => hst
    responseDone := nofun }

/-- Every accepted word keeps the invariant. -/
theorem inv_of_commandStep {s t : State} {cmd : BitVec 16} (h : Inv s) (hidle : s.ph = .idle) (hstep : CommandStep s cmd t) :
    Inv t := by
  cases hstep
  case init alg => exact inv_startSession h hidle alg
  case ignored => exact { h with responseDone := nofun }
  case fault hc _ => exact inv_takeFault h hidle hc
  case data b hst hroom hcnt => exact inv_byteAbsorbed h hidle hst hroom hcnt b
  case final hst =>
    have hpos := h.position
    unfold PositionOk at hpos
    rw [hidle] at hpos
    obtain ⟨hcnt, ht, -, -, hagrees⟩ := hpos
    exact { h with
      position := ⟨hcnt, ht, rfl, rfl, hagrees hst⟩
      busyAbsorb := fun _ => hst
      responseDone := nofun }
  case rddg hst _ _ => exact { h with responseDone := fun _ => hst }

/-- Settles O33, by the ways in which a step answers. -/
theorem stepKeepsInvariant : Obligations.StepKeepsInvariant := by
  intro s t h hstep
  have hdrop : Inv (dropPins s) := inv_with_inputs h s.inputs.tail
  obtain rfl | ⟨-, -, huop⟩ | ⟨-, hidle, -, hcmd⟩ | ⟨-, -, rfl⟩ := step_eq_next_cases hstep
  · exact inv_afterReset _ _
  · exact inv_of_uopStep hdrop huop
  · exact inv_of_commandStep hdrop hidle hcmd
  · exact hdrop

end Sys2Proof.Machine
end

section
/-! PROOFS. Where the model stops (10_state.md R45, 00_scope.md R12), and that no state of the invariant, so no state that a
run from reset reaches, stops it. -/

namespace Sys2Proof.Machine

open Sys2Proof Sys2Proof.Safety

/-! ## Stops -/

/-- The outcome is no refusal, and it is a fault of the model exactly when `P` holds. -/
def StopsExactly (P : Prop) (r : Result) : Prop := (∀ x, r ≠ .refused x) ∧ ((∃ f, r = .fault f) ↔ P)

/-- The same condition in another form. -/
theorem StopsExactly.congr {P Q : Prop} {r : Result} (h : StopsExactly P r) (hPQ : P ↔ Q) : StopsExactly Q r :=
  ⟨h.1, h.2.trans hPQ⟩

/-- Where the condition fails there is a next state. -/
theorem StopsExactly.exists_next {P : Prop} {r : Result} (h : StopsExactly P r) (hP : ¬ P) : ∃ t, r = .next t := by
  obtain ⟨hrefused, hfault⟩ := h
  cases r with
  | next t => exact ⟨t, rfl⟩
  | fault f => exact absurd (hfault.mp ⟨f, rfl⟩) hP
  | refused x => exact absurd rfl (hrefused x)

/-- A next state is no stop. -/
theorem stopsExactly_next (t : State) : StopsExactly False (.next t) :=
  ⟨nofun, ⟨fun ⟨_, h⟩ => (nomatch h), False.elim⟩⟩

/-- Going on after a read to a next state stops exactly where the read does not answer. -/
theorem stopsExactly_orFault {α : Type} (r : Except Fault α) (g : α → State) :
    StopsExactly (¬ ∃ a, r = .ok a) (orFault r fun a => .next (g a)) := by
  cases r with
  | ok a => exact (stopsExactly_next (g a)).congr (by simp)
  | error f => exact ⟨nofun, by simp [orFault]⟩

/-- A command stops only in its own session state, where its effect does. -/
theorem stopsExactly_ifSession {legal : SessionState} {s : State} {body : State → Result} {P : Prop}
    (hlegal : legal ≠ .error) (h : StopsExactly P (body (clearResponse s))) :
    StopsExactly (s.st = legal ∧ P) (ifSession legal s body) := by
  by_cases hst : s.st = legal
  · rw [ifSession_of_legal body hst hlegal]
    exact h.congr (by simp [hst])
  · have hnot : False ↔ s.st = legal ∧ P := by simp [hst]
    by_cases herr : s.st = .error
    · rw [ifSession_of_error body herr]
      exact (stopsExactly_next _).congr hnot
    · rw [ifSession_of_other body herr hst]
      exact (stopsExactly_next _).congr hnot

/-! ## The reads -/

/-- Appending answers below index 128. -/
theorem appendByte_answers_iff {s : State} {b : Byte} : (∃ t, appendByte s b = .ok t) ↔ s.cnt.toNat < 128 := by
  simp only [appendByte_eq_ok, exists_and_left, exists_eq, and_true]

/-- A read of the digest register inside the digest answers where the byte is written. -/
theorem readByte_dg_answers_iff {s : State} {n : Nat} (hn : n < 64) :
    (∃ b, readByte s .dg n = .ok b) ↔ s.dg.read n ≠ none := by
  have hin : n < Space.size .dg := hn
  simp only [readByte_eq_ok, hin, true_and, space_dg, Option.ne_none_iff_exists']

/-- Loading a block answers where all its bytes are written. -/
theorem loadedSchedule_answers_iff {s : State} :
    (∃ w, loadedSchedule s 16 = .ok w) ↔ ∀ a, a < 128 → (s.buf.read a).isSome := by
  refine ⟨fun ⟨w, hw⟩ a ha => loadedSchedule_written hw ha, fun h => ?_⟩
  have hread : ∀ a, a < 128 → s.buf.read a = some ((s.buf.read a).getD 0) := fun a ha => by
    obtain ⟨b, hb⟩ := Option.isSome_iff_exists.mp (h a ha)
    rw [hb, Option.getD_some]
  obtain ⟨w, hw, -⟩ := loadedSchedule_eq (fun a => (s.buf.read a).getD 0) (le_refl 16) hread
  exact ⟨w, hw⟩

/-- A schedule word is answered for the indices of `EXP`. -/
theorem expandedWord_answers_iff {w : Vector Word 80} {t : Nat} :
    (∃ x, expandedWord w t = .ok x) ↔ 16 ≤ t ∧ t < 80 :=
  ⟨fun ⟨_, hx⟩ => expandedWord_range hx, fun h => ⟨_, expandedWord_eq h⟩⟩

/-- The operands of a round are answered for the indices of `RND`. -/
theorem roundOperands_answers_iff {w : Vector Word 80} {t : Nat} : (∃ x, roundOperands w t = .ok x) ↔ t < 80 :=
  ⟨fun ⟨_, hx⟩ => roundOperands_range hx, fun h => ⟨_, roundOperands_eq h⟩⟩

/-! ## Every instruction -/

/-- `DATA` in its own session state stops where a byte that fits the counter finds no room. -/
theorem stopsExactly_absorbByte (b : Byte) (s : State) :
    StopsExactly (s.len.toNat ≠ 2 ^ 64 - 8 ∧ 128 ≤ s.cnt.toNat) (absorbByte b s) := by
  by_cases hfull : s.len.toNat = 2 ^ 64 - 8
  · rw [absorbByte_of_full hfull]
    exact (stopsExactly_next _).congr (by simp [hfull])
  · rw [absorbByte, if_neg (mt (lenFull_iff s.len).mp hfull)]
    refine (stopsExactly_orFault _ _).congr ?_
    rw [appendByte_answers_iff, Nat.not_lt]
    exact (and_iff_right hfull).symm

/-- `RDDG` in its own session state stops at a byte of the digest that nothing has written. -/
theorem stopsExactly_respond (n : Byte) (s : State) :
    StopsExactly (n.toNat < dlen s.alg ∧ s.dg.read n.toNat = none) (respond n s) := by
  rcases Nat.lt_or_ge n.toNat (dlen s.alg) with hlt | hge
  · rw [respond, if_neg (Nat.not_le.mpr hlt)]
    refine (stopsExactly_orFault _ _).congr ?_
    rw [readByte_dg_answers_iff (Nat.lt_of_lt_of_le hlt (dlen_le s.alg)), not_not]
    exact (and_iff_right hlt).symm
  · rw [respond_of_ge hge]
    exact (stopsExactly_next _).congr (by simp [Nat.not_lt.mpr hge])

/-- Settles O31, instruction by instruction: the condition is that of the read which the instruction goes on from. -/
theorem modelStopsExactlyOutsideTheRules : Obligations.ModelStopsExactlyOutsideTheRules := by
  intro i s
  cases i
  case init512 | init384 | plen | ldv | add | fin => exact stopsExactly_next _
  case data b => exact stopsExactly_ifSession (by decide) (stopsExactly_absorbByte b _)
  case final =>
    have heffect := stopsExactly_next { clearResponse s with finf := true, lw := false, ph := .p80 }
    exact (stopsExactly_ifSession (legal := .absorb) (body := beginFinal) (by decide) heffect).congr (iff_false_intro And.right)
  case rddg n => exact stopsExactly_ifSession (by decide) (stopsExactly_respond n _)
  case p80 => exact (stopsExactly_orFault _ _).congr (by rw [appendByte_answers_iff, Nat.not_lt])
  case pz =>
    rcases Nat.lt_or_ge 112 s.cnt.toNat with hgt | hle
    · rw [exec_pz_of_gt hgt]
      exact stopsExactly_next _
    · rw [exec_pz_of_le hle]
      exact stopsExactly_next _
  case ldw => exact (stopsExactly_orFault _ _).congr (by rw [loadedSchedule_answers_iff]; simp)
  case exp => exact (stopsExactly_orFault _ _).congr (by rw [expandedWord_answers_iff]; omega)
  case rnd => exact (stopsExactly_orFault _ _).congr (by rw [roundOperands_answers_iff, Nat.not_lt])

/-! ## No state of the invariant stops -/

/-- In the invariant the micro-operation that `PH` names answers: its index is in range and its bytes are written. -/
theorem uop_answers {s : State} {i : Instr} (h : Inv s) (hi : fetchUop s = .ok i) : ∃ t, exec i s = .next t := by
  have stops := modelStopsExactlyOutsideTheRules i s
  have hpos := h.position
  unfold PositionOk at hpos
  unfold fetchUop at hi
  cases hph : s.ph <;> rw [hph] at hi hpos <;> cases hi
  case p80 =>
    obtain ⟨hcnt, -⟩ := hpos
    exact StopsExactly.exists_next stops (Nat.not_le.mpr (Nat.lt_succ_of_le hcnt))
  case ldw =>
    obtain ⟨⟨hcnt, -, -⟩, -⟩ := hpos
    refine StopsExactly.exists_next stops fun ⟨a, ha, hnone⟩ => ?_
    have hsome := h.bufWritten a (by rw [hcnt]; exact ha)
    rw [hnone] at hsome
    cases hsome
  case exp =>
    obtain ⟨-, hlo, hhi⟩ := hpos
    exact StopsExactly.exists_next stops (by omega)
  case rnd =>
    obtain ⟨-, hhi⟩ := hpos
    exact StopsExactly.exists_next stops (by omega)
  case pz | plen | ldv | add | fin => exact StopsExactly.exists_next stops id

/-- In the invariant every word that a ready core accepts is answered: the buffer has room, and in `DONE` the digest is
written. -/
theorem acceptWord_answers {s : State} (h : Inv s) (hidle : s.ph = .idle) (cmd : BitVec 16) :
    ∃ t, acceptWord cmd s = .next t := by
  cases hdec : decodeCommand cmd with
  | error e => exact ⟨acceptIllFormed s, by rw [acceptWord, hdec]⟩
  | ok i =>
    rw [acceptWord_of_decode hdec]
    obtain ⟨-, henc⟩ := decodeCommand_eq_ok_iff.mp hdec
    have stops := modelStopsExactlyOutsideTheRules i s
    cases i
    case init512 | init384 | final => exact StopsExactly.exists_next stops id
    case data b =>
      have hpos := h.position
      unfold PositionOk at hpos
      rw [hidle] at hpos
      obtain ⟨hcnt, -⟩ := hpos
      exact StopsExactly.exists_next stops fun ⟨_, _, hfull⟩ => absurd hcnt (by omega)
    case rddg n =>
      refine StopsExactly.exists_next stops fun ⟨hdone, hlt, hnone⟩ => ?_
      rw [h.digestHeld hdone n.toNat hlt, List.getElem?_eq_none_iff, length_finalize] at hnone
      omega
    case p80 | pz | plen | ldw | exp | ldv | rnd | add | fin => cases henc

/-- Settles O34, by the ways a step can go. -/
theorem invariantStatesNeverStop : Obligations.InvariantStatesNeverStop := by
  intro s h
  have hdrop : Inv (dropPins s) := inv_with_inputs h s.inputs.tail
  obtain ⟨-, he⟩ | ⟨-, -, i, hi, he⟩ | ⟨-, hidle, -, he⟩ | ⟨-, -, -, he⟩ := stepWith_cases (currentPins s) (dropPins s) <;>
    rw [step, he]
  · exact ⟨_, rfl⟩
  · exact uop_answers hdrop hi
  · exact acceptWord_answers hdrop hidle _
  · exact ⟨_, rfl⟩

/-- The invariant holds of every state that a run reaches, by induction on the run. -/
theorem inv_of_reachable {s : State} (h : Reachable s) : Inv s := by
  induction h with
  | reset => exact invariantHoldsAtReset
  | environment s inputs _ ih => exact inv_with_inputs ih inputs
  | step s t _ hstep ih => exact stepKeepsInvariant s t ih hstep

/-- Settles O35, by the invariant of the reached states. -/
theorem reachableStatesNeverStop : Obligations.ReachableStatesNeverStop :=
  fun s h => ⟨inv_of_reachable h, invariantStatesNeverStop s (inv_of_reachable h)⟩

end Sys2Proof.Machine
end

section
/-! PROOFS. How many micro-operations are owed (42_compressor.md R138, 70_reset_and_hazards.md R246): a number that every
micro-operation lowers by one, and the run from an accepted `FINAL` to the closed session (40_padder.md R97). -/

namespace Sys2Proof.Machine

open Sys2Proof Sys2Proof.Safety

/-- The micro-operations owed after a block: none, the padding of one more block, or `FIN` (42_compressor.md R136). -/
def owedAfterBlock (finf lw : Bool) : Nat :=
  if finf then (if lw then 1 else 150) else 0

/-- The micro-operations owed at a position of the sequencer. A block owes 147: `LDW`, 64 `EXP`, `LDV`, 80 `RND`, `ADD`. -/
def owed (p : Position) : Nat :=
  match p.ph with
  | .idle => 0
  | .p80 => if p.cnt.toNat ≤ 111 then 151 else 299
  | .pz => if p.cnt.toNat ≤ 112 then 150 else 298
  | .plen => 149
  | .ldw => 147 + owedAfterBlock p.finf p.lw
  | .exp => (80 - p.t.toNat) + 82 + owedAfterBlock p.finf p.lw
  | .ldv => 82 + owedAfterBlock p.finf p.lw
  | .rnd => (80 - p.t.toNat) + 1 + owedAfterBlock p.finf p.lw
  | .add => 1 + owedAfterBlock p.finf p.lw
  | .fin => 1

/-- The core is ready exactly when nothing is owed. -/
theorem owed_eq_zero_iff (s : State) : owed (position s) = 0 ↔ s.ph = .idle := by
  unfold owed position
  cases s.ph
  case p80 | pz =>
    dsimp only
    split <;> simp
  all_goals simp

/-- What a block leaves owed is what the position after it owes. -/
theorem owed_afterBlock (t : BitVec 7) (finf lw : Bool) :
    owed ⟨afterBlock finf lw, 0, t, finf, lw⟩ = owedAfterBlock finf lw := by
  cases finf <;> cases lw <;> rfl

/-- Every micro-operation pays one of those that are owed. -/
theorem owed_uop {s t : State} (h : Inv s) (hstep : UopStep s t) : owed (position s) = owed (position t) + 1 := by
  have hpos := h.position
  unfold PositionOk at hpos
  cases hstep
  case p80 hph hcnt =>
    have hsucc := toNat_cnt_add_one hcnt
    simp only [owed, position, hph, hsucc, Nat.succ_le_succ_iff]
    split <;> rfl
  case pzToLength hph hcnt => simp [owed, position, hph, hcnt]
  case pzToBlockEnd hph hcnt =>
    rw [hph] at hpos
    obtain ⟨-, -, hfinf, hlw⟩ := hpos
    simp [owed, position, hph, Nat.not_le.mpr hcnt, hfinf, hlw, owedAfterBlock]
  case plen hph =>
    rw [hph] at hpos
    obtain ⟨-, -, hfinf, -⟩ := hpos
    simp [owed, position, hph, hfinf, owedAfterBlock]
  case ldw hph w =>
    have hfirst : (16 : BitVec 7).toNat = 16 := rfl
    simp only [owed, position, hph, hfirst]
    omega
  case exp hph ht w =>
    have hsucc : (s.t + 1).toNat = s.t.toNat + 1 := toNat_add_one (by omega)
    by_cases hlast : s.t.toNat = 79
    · simp only [owed, position, hph, hlast, if_true]
      omega
    · simp only [owed, position, hph, hsucc, if_neg hlast]
      omega
  case ldv hph =>
    have hfirst : (0 : BitVec 7).toNat = 0 := rfl
    simp only [owed, position, hph, hfirst]
    omega
  case rnd hph ht v =>
    have hsucc : (s.t + 1).toNat = s.t.toNat + 1 := toNat_add_one (by omega)
    by_cases hlast : s.t.toNat = 79
    · simp only [owed, position, hph, hlast, if_true]
      omega
    · simp only [owed, position, hph, hsucc, if_neg hlast]
      omega
  case add hph =>
    simp only [position, owed_afterBlock]
    simp only [owed, hph]
    omega
  case fin hph => simp [owed, position, hph]

/-- The end of the message has been taken in: the padding or what follows it is owed, or the session is closed. -/
def Finishing (s : State) : Prop := (s.ph ≠ .idle ∧ s.finf = true) ∨ (s.ph = .idle ∧ s.st = .done)

/-- No micro-operation takes the end of the message back. -/
theorem finishing_uop {s t : State} (hfinf : s.finf = true) (hstep : UopStep s t) : Finishing t := by
  cases hstep
  case add =>
    refine .inl ⟨?_, hfinf⟩
    dsimp only
    rw [hfinf, afterBlock, if_pos rfl]
    split <;> decide
  case exp | rnd =>
    refine .inl ⟨?_, hfinf⟩
    dsimp only
    split <;> decide
  case fin => exact .inr ⟨rfl, rfl⟩
  case p80 | pzToLength | pzToBlockEnd | plen | ldw | ldv => exact .inl ⟨nofun, hfinf⟩

/-- `j` of the micro-operations that are owed after the end of the message leave `j` fewer owed, in the invariant. -/
theorem runsTo_owed {j : Nat} {s : State} (h : Inv s) (hfinishing : Finishing s) (hrst : NoResetFor j s)
    (hj : j ≤ owed (position s)) :
    RunsTo j s fun u => Inv u ∧ Finishing u ∧ owed (position u) + j = owed (position s) := by
  induction j generalizing s with
  | zero => exact ⟨s, runSteps_zero s, h, hfinishing, rfl⟩
  | succ j ih =>
    have hbusy : s.ph ≠ .idle := mt (owed_eq_zero_iff s).mpr (by omega)
    obtain ⟨-, hfinf⟩ | ⟨hidle, -⟩ := hfinishing
    · obtain ⟨hnow, hlater⟩ := noResetFor_succ.mp hrst
      obtain ⟨i, hi⟩ := exists_fetchUop hbusy
      have hdrop : Inv (dropPins s) := inv_with_inputs h s.inputs.tail
      obtain ⟨t, ht⟩ := uop_answers (i := i) hdrop hi
      have huop : UopStep (dropPins s) t := .of_exec hi ht
      have hinputs : t.inputs = (dropPins s).inputs := uop_keeps_inputs (s := dropPins s) hi ht
      have hpaid : owed (position s) = owed (position t) + 1 := owed_uop (s := dropPins s) hdrop huop
      have hlater : NoResetFor j t := by rwa [NoResetFor, hinputs]
      obtain ⟨u, hrun, hu, hend, hleft⟩ :=
        ih (inv_of_uopStep hdrop huop) (finishing_uop (s := dropPins s) hfinf huop) hlater (by omega)
      refine ⟨u, ?_, hu, hend, by omega⟩
      rw [runSteps_succ ((step_of_fetchUop hnow hi).trans ht), hrun]
    · exact absurd hidle hbusy

/-- An accepted `FINAL` in an open session owes the padding (45_commands.md R175). -/
theorem step_final {s : State} (hst : s.st = .absorb) (haccepts : Accepts s finalWord) :
    step s = .next { dropPins s with rspv := false, finf := true, lw := false, ph := .p80 } := by
  obtain ⟨hrst, hidle, hvalid, hword⟩ := haccepts
  rw [step_of_presented hrst hidle hvalid, hword, acceptWord_of_decode (i := .final) (by decide)]
  exact ifSession_of_legal beginFinal hst (by decide)

/-- Settles O38: after `FINAL` 151 or 299 micro-operations are owed, each step pays one, and the core is ready exactly when
none is left. -/
theorem finalOwes151Or299MicroOperations : Obligations.FinalOwes151Or299MicroOperations := by
  intro s h hst haccepts hrst k
  have hstep := step_final hst haccepts
  obtain ⟨-, hlater⟩ := noResetFor_succ.mp hrst
  have hk : k ≤ 299 := by
    dsimp only [k]
    split <;> decide
  have hrun : ∀ j, j ≤ k → ∃ u, runSteps (1 + j) s = .next u ∧ Inv u ∧ Finishing u ∧ owed (position u) + j = k := by
    intro j hj
    obtain ⟨u, hu, hprops⟩ := runsTo_owed (stepKeepsInvariant _ _ h hstep) (.inl ⟨nofun, rfl⟩)
      (noResetFor_mono hlater (Nat.le_trans hj hk)) hj
    exact ⟨u, by rw [runSteps_add (runSteps_one hstep), hu], hprops⟩
  refine ⟨?closed, fun j hj => ?owing⟩
  case closed =>
    obtain ⟨u, hu, hinv, hend, hleft⟩ := hrun k (le_refl k)
    have hidle : u.ph = .idle := (owed_eq_zero_iff u).mp (by omega)
    have hdone : u.st = .done := hend.elim (fun hbusy => absurd hidle hbusy.left) And.right
    refine ⟨u, hu, hidle, hdone, ?_⟩
    by_contra herr
    cases hdone.symm.trans (hinv.errExact.mp herr)
  case owing =>
    obtain ⟨u, hu, hinv, -, hleft⟩ := hrun j hj.le
    have hbusy : u.ph ≠ .idle := mt (owed_eq_zero_iff u).mpr (by omega)
    exact ⟨u, hu, hbusy, hinv.busyAbsorb hbusy⟩

end Sys2Proof.Machine
end

section
/-! PROOFS. The hash state, the working state and the schedule do not show at the ports after a step (20_memory.md section 4,
45_commands.md section 1). -/

namespace Sys2Proof.Machine

open Sys2Proof Sys2Proof.Safety

/-- The state with other words in `H`, `V` and `W`. -/
def withWords (h v : Vector Word 8) (w : Vector Word 80) (s : State) : State := { s with h := h, v := v, w := w }

/-- Two outcomes that, where both are next states, drive the same ports. -/
def SamePorts (r₁ r₂ : Result) : Prop := ∀ t₁ t₂, r₁ = .next t₁ → r₂ = .next t₂ → outputPorts t₁ = outputPorts t₂

/-- Two next states with the same ports. -/
theorem samePorts_next {t₁ t₂ : State} (h : outputPorts t₁ = outputPorts t₂) : SamePorts (.next t₁) (.next t₂) := by
  intro u₁ u₂ h₁ h₂
  cases h₁
  cases h₂
  exact h

section
variable (h v : Vector Word 8) (w : Vector Word 80) (s : State)

/-- The ports show control registers and the response register only (10_state.md R40 to R42). -/
theorem outputPorts_withWords : outputPorts (withWords h v w s) = outputPorts s := rfl

/-- The order of checks reads `ST`, and so the ports after a command show no word if they show none after its effect. -/
theorem samePorts_ifSession {legal : SessionState} {body : State → Result}
    (hbody : SamePorts (body (clearResponse s)) (body (withWords h v w (clearResponse s)))) :
    SamePorts (ifSession legal s body) (ifSession legal (withWords h v w s) body) := by
  by_cases herr : s.st = .error
  · rw [ifSession_of_error body herr, ifSession_of_error (s := withWords h v w s) body herr]
    exact samePorts_next (outputPorts_withWords h v w (clearResponse s)).symm
  · by_cases hst : s.st = legal
    · rw [ifSession_of_legal body hst (hst ▸ herr), ifSession_of_legal (s := withWords h v w s) body hst (hst ▸ herr)]
      exact hbody
    · rw [ifSession_of_other body herr hst, ifSession_of_other (s := withWords h v w s) body herr hst]
      exact samePorts_next (outputPorts_withWords h v w (takeFault .cmdSequence s)).symm

/-- The effect of `DATA` reads `LEN` and `CNT`. -/
theorem samePorts_absorbByte (b : Byte) : SamePorts (absorbByte b s) (absorbByte b (withWords h v w s)) := by
  by_cases hfull : s.len.toNat = 2 ^ 64 - 8
  · rw [absorbByte_of_full hfull, absorbByte_of_full (s := withWords h v w s) hfull]
    exact samePorts_next (outputPorts_withWords h v w (takeFault .inputTooLarge s)).symm
  · intro t₁ t₂ h₁ h₂
    obtain ⟨-, rfl⟩ := (absorbByte_eq_next hfull).mp h₁
    obtain ⟨-, rfl⟩ := (absorbByte_eq_next (s := withWords h v w s) hfull).mp h₂
    exact (outputPorts_withWords h v w (byteAbsorbed b s)).symm

/-- The effect of `RDDG` reads `ALG` and the digest register. -/
theorem samePorts_respond (n : Byte) : SamePorts (respond n s) (respond n (withWords h v w s)) := by
  rcases Nat.lt_or_ge n.toNat (dlen s.alg) with hlt | hge
  · intro t₁ t₂ h₁ h₂
    obtain ⟨b₁, hb₁, rfl⟩ := (respond_eq_next hlt).mp h₁
    obtain ⟨b₂, hb₂, rfl⟩ := (respond_eq_next (s := withWords h v w s) hlt).mp h₂
    cases hb₁.symm.trans hb₂
    exact (outputPorts_withWords h v w { s with rspd := b₁, rspv := true }).symm
  · rw [respond_of_ge hge, respond_of_ge (s := withWords h v w s) hge]
    exact samePorts_next (outputPorts_withWords h v w (takeFault .digestIndex s)).symm

/-- An accepted word shows no word of `H`, `V` and `W` (20_memory.md section 4). -/
theorem samePorts_acceptWord (cmd : BitVec 16) : SamePorts (acceptWord cmd s) (acceptWord cmd (withWords h v w s)) := by
  cases hdec : decodeCommand cmd with
  | error e =>
    simp only [acceptWord, hdec]
    by_cases herr : s.st = .error
    · rw [acceptIllFormed_of_error herr, acceptIllFormed_of_error (s := withWords h v w s) herr]
      exact samePorts_next (outputPorts_withWords h v w (clearResponse s)).symm
    · rw [acceptIllFormed_of_ne_error herr, acceptIllFormed_of_ne_error (s := withWords h v w s) herr]
      exact samePorts_next (outputPorts_withWords h v w (takeFault .cmdIllegal s)).symm
  | ok i =>
    rw [acceptWord_of_decode hdec, acceptWord_of_decode hdec]
    obtain ⟨-, henc⟩ := decodeCommand_eq_ok_iff.mp hdec
    cases i
    case init512 => exact samePorts_next rfl
    case init384 => exact samePorts_next rfl
    case data b => exact samePorts_ifSession h v w s (samePorts_absorbByte h v w (clearResponse s) b)
    case final => exact samePorts_ifSession h v w s (samePorts_next rfl)
    case rddg n => exact samePorts_ifSession h v w s (samePorts_respond h v w (clearResponse s) n)
    case p80 | pz | plen | ldw | exp | ldv | rnd | add | fin => cases henc

/-- The registers that the ports show decide what they drive. -/
theorem outputPorts_eq_of_position {t₁ t₂ : State} (hpos : position t₁ = position t₂) (hst : t₁.st = t₂.st)
    (halg : t₁.alg = t₂.alg) (herr : t₁.err = t₂.err) (hrspv : t₁.rspv = t₂.rspv) (hrspd : t₁.rspd = t₂.rspd) :
    outputPorts t₁ = outputPorts t₂ := by
  have hph : t₁.ph = t₂.ph := congrArg Position.ph hpos
  have hcnt : t₁.cnt = t₂.cnt := congrArg Position.cnt hpos
  simp only [outputPorts, cmdReady, statusWord, busy, hph, hcnt, hst, halg, herr, hrspv, hrspd]

/-- A micro-operation shows no word of `H`, `V` and `W`: the sequencer's table and the frame do not read them. -/
theorem samePorts_uop {i : Instr} (hi : fetchUop s = .ok i) :
    SamePorts (exec i s) (exec i (withWords h v w s)) := by
  intro t₁ t₂ h₁ h₂
  have hi₂ : fetchUop (withWords h v w s) = .ok i := hi
  obtain ⟨herr₁, halg₁, -, hst₁⟩ := uop_frame hi h₁
  obtain ⟨herr₂, halg₂, -, hst₂⟩ := uop_frame hi₂ h₂
  obtain ⟨hrspv₁, hrspd₁⟩ := uop_holds_response hi h₁
  obtain ⟨hrspv₂, hrspd₂⟩ := uop_holds_response hi₂ h₂
  have hpos₁ := (UopStep.of_exec hi h₁).position_eq
  have hpos₂ := (UopStep.of_exec hi₂ h₂).position_eq
  exact outputPorts_eq_of_position (hpos₁.trans hpos₂.symm) (hst₁.trans hst₂.symm) (halg₁.trans halg₂.symm)
    (herr₁.trans herr₂.symm) (hrspv₁.trans hrspv₂.symm) (hrspd₁.trans hrspd₂.symm)

end

/-- Settles O50, by what a step without reset can be: both states go the same way, because `PH` and the port sample choose
it. -/
theorem wordStorageIsHiddenFromThePorts : Obligations.WordStorageIsHiddenFromThePorts := by
  intro s t₁ t₂ h v w hrst h₁ h₂
  change step (withWords h v w s) = .next t₂ at h₂
  by_cases hidle : s.ph = .idle
  · cases hvalid : (currentPins s).cmdValid with
    | true =>
      rw [step_of_presented hrst hidle hvalid] at h₁
      rw [step_of_presented (s := withWords h v w s) hrst hidle hvalid] at h₂
      exact samePorts_acceptWord h v w (dropPins s) _ t₁ t₂ h₁ h₂
    | false =>
      cases (step_of_nothing_presented hrst hidle hvalid).symm.trans h₁
      cases (step_of_nothing_presented (s := withWords h v w s) hrst hidle hvalid).symm.trans h₂
      exact (outputPorts_withWords h v w (dropPins s)).symm
  · obtain ⟨i, hi⟩ := exists_fetchUop hidle
    rw [step_of_fetchUop hrst hi] at h₁
    rw [step_of_fetchUop (s := withWords h v w s) hrst hi] at h₂
    exact samePorts_uop h v w (dropPins s) hi t₁ t₂ h₁ h₂

end Sys2Proof.Machine
end

section
/-! PROOFS. What the host can know of the core (10_state.md R39, R44): the core's history shows at the host's interface only as
one of four views, which every host act takes to one view and one response; so two cores of the same view answer alike. -/

namespace Sys2Proof.Machine

open Sys2Proof

/-- What the host knows of a ready core: no session since reset, the bytes of the open session, the message of the closed one,
or a fault. -/
inductive HostView where
  | unopened
  | absorbing (alg : Alg) (p : List Byte)
  | closed (alg : Alg) (m : List Byte)
  | faulted

/-- A ready core of that view. -/
def HostView.Holds (s : State) : HostView → Prop
  | .unopened => s.ph = .idle ∧ s.st = .idle
  | .absorbing alg p => Absorbed alg p s
  | .closed alg m => SessionClosed alg m.length (pad m) s
  | .faulted => s.ph = .idle ∧ s.st = .error

/-- A host act on a core of a view is fully known: the view after it and the byte it returns, if any, are the same for every
core of the view before. -/
def ActDetermined (view : HostView) (a : HostAct) : Prop :=
  ∃ (view' : HostView) (out : Option Byte), ∀ s, view.Holds s →
    ∃ t, perform a s = .next t ∧ view'.Holds t ∧ (if t.rspv then some t.rspd else none) = out

/-- The core of any view is ready. -/
theorem HostView.Holds.ph_idle {view : HostView} {s : State} (h : view.Holds s) : s.ph = .idle := by
  cases view with
  | unopened | faulted => exact h.left
  | absorbing alg p => exact Absorbed.ph_idle h
  | closed alg m => exact SessionClosed.ph h

/-- The port samples are no part of a view: the host sets them with each act. -/
theorem HostView.Holds.with_quiet {view : HostView} {s : State} (h : view.Holds s) :
    view.Holds { s with inputs := [] } := by
  cases view with
  | unopened | faulted => exact h
  | absorbing alg p =>
    obtain ⟨done, tail, hp, hlen, hstage⟩ := h
    exact ⟨done, tail, hp, hlen, { hstage with quiet := rfl }⟩
  | closed alg m => exact { h with }

/-- The session state of a view (10_state.md R34). -/
def HostView.st : HostView → SessionState
  | .unopened => .idle
  | .absorbing _ _ => .absorb
  | .closed _ _ => .done
  | .faulted => .error

/-- The core of a view is in the view's session state. -/
theorem HostView.Holds.st_eq {view : HostView} {s : State} (h : view.Holds s) : s.st = view.st := by
  cases view with
  | unopened | faulted => exact h.right
  | absorbing alg p =>
    obtain ⟨_, _, -, -, hstage⟩ := h
    exact hstage.st
  | closed alg m => exact SessionClosed.st h

/-! ## Host acts, view by view -/

/-- Reset ends every session (70_reset_and_hazards.md R230). -/
theorem perform_reset (s : State) :
    perform .reset s = .next (State.afterReset (s.epoch + 1) []) := by
  have hstep : step { s with inputs := [actPins .reset] } = .next (State.afterReset (s.epoch + 1) []) :=
    step_of_reset (s := { s with inputs := [resetPins] }) rfl
  rw [perform, hstep]
  exact settle_of_runSteps (k := 0) rfl (runSteps_zero _) rfl (Nat.zero_le _)

/-- An act that every core of the view answers with the same view and no response. -/
theorem actDetermined_of_silent {view view' : HostView} {a : HostAct}
    (h : ∀ s, view.Holds s → ∃ t, perform a s = .next t ∧ view'.Holds t ∧ t.rspv = false) : ActDetermined view a := by
  refine ⟨view', none, fun s hs => ?_⟩
  obtain ⟨t, ht, hview, hrsp⟩ := h s hs
  exact ⟨t, ht, hview, by rw [hrsp]; rfl⟩

/-- A word that takes every core of the view to `ERROR`, or leaves it there. -/
theorem actDetermined_of_fault {view : HostView} {cmd : BitVec 16}
    (h : ∀ s, view.Holds s → ∃ t, acceptWord cmd s = .next t ∧ t.inputs = s.inputs ∧ t.ph = s.ph ∧ t.st = .error ∧
      t.rspv = false) : ActDetermined view (.word cmd) := by
  refine actDetermined_of_silent (view' := .faulted) fun s hs => ?_
  obtain ⟨t, haccept, hinputs, hph, hst, hrsp⟩ := h { s with inputs := [] } hs.with_quiet
  have hidle : t.ph = .idle := hph.trans hs.ph_idle
  exact ⟨t, perform_word_of_idle hs.ph_idle haccept hinputs hidle, ⟨hidle, hst⟩, hrsp⟩

/-- A command outside its own session state takes every core of the view to `ERROR`, or leaves it there. -/
theorem actDetermined_of_other {view : HostView} {cmd : BitVec 16} {i : Instr} {legal : SessionState}
    {body : State → Result} (hdec : decodeCommand cmd = .ok i) (hexec : ∀ s, exec i s = ifSession legal s body)
    (hother : view.st ≠ legal) : ActDetermined view (.word cmd) := by
  refine actDetermined_of_fault fun s hs => ?_
  rw [acceptWord_of_decode hdec, hexec]
  by_cases herr : s.st = .error
  · exact ⟨_, ifSession_of_error body herr, rfl, rfl, herr, rfl⟩
  · exact ⟨_, ifSession_of_other body herr (hs.st_eq ▸ hother), rfl, rfl, rfl, rfl⟩

/-- A word that is no instruction. -/
theorem actDetermined_of_illFormed (view : HostView) {cmd : BitVec 16} {e : DecodeError}
    (hdec : decodeCommand cmd = .error e) : ActDetermined view (.word cmd) := by
  refine actDetermined_of_fault fun s _ => ⟨acceptIllFormed s, by rw [acceptWord, hdec], ?_⟩
  by_cases herr : s.st = .error
  · rw [acceptIllFormed_of_error herr]
    exact ⟨rfl, rfl, herr, rfl⟩
  · rw [acceptIllFormed_of_ne_error herr]
    exact ⟨rfl, rfl, rfl, rfl⟩

/-- `INIT*` opens an empty session in every view. -/
theorem actDetermined_init (view : HostView) (alg : Alg) : ActDetermined view (.word (initWord alg)) :=
  actDetermined_of_silent (view' := .absorbing alg []) fun _ hs => by
    obtain ⟨t, ht, habsorbed⟩ := perform_init alg hs.ph_idle
    exact ⟨t, ht, habsorbed, habsorbed.rspv_false⟩

/-- `DATA b` takes an open session on by its byte, or raises `InputTooLarge` after the longest message. -/
theorem actDetermined_data (alg : Alg) (p : List Byte) (b : Byte) :
    ActDetermined (.absorbing alg p) (.word (dataWord b)) := by
  by_cases hfit : 8 * (p.length + 1) < 2 ^ 64
  · exact actDetermined_of_silent (view' := .absorbing alg (p ++ [b])) fun s hs => by
      obtain ⟨t, ht, habsorbed⟩ := perform_data b hs hfit
      exact ⟨t, ht, habsorbed, habsorbed.rspv_false⟩
  · refine actDetermined_of_fault fun s hs => ?_
    obtain ⟨_, _, -, -, hstage⟩ := hs
    have hfull : (clearResponse s).len.toNat = 2 ^ 64 - 8 := by
      have hlt : s.len.toNat < 2 ^ 64 := s.len.isLt
      have hlen := hstage.len
      rw [clearResponse_len]
      omega
    refine ⟨takeFault .inputTooLarge (clearResponse s), ?_, rfl, rfl, rfl, rfl⟩
    rw [acceptWord_of_decode (decodeCommand_dataWord b), exec, execData, ifSession_of_legal _ hstage.st (by decide)]
    exact absorbByte_of_full hfull

/-- `FINAL` closes an open session with the digest of its message. -/
theorem actDetermined_final (alg : Alg) (m : List Byte) : ActDetermined (.absorbing alg m) (.word finalWord) :=
  actDetermined_of_silent (view' := .closed alg m) fun _ hs => perform_final hs

/-- `RDDG n` of a closed session returns the digest byte, or raises `DIGEST_INDEX`. -/
theorem actDetermined_rddg (alg : Alg) (m : List Byte) {cmd : BitVec 16} {n : Byte}
    (hdec : decodeCommand cmd = .ok (.rddg n)) : ActDetermined (.closed alg m) (.word cmd) := by
  by_cases hn : n.toNat < dlen alg
  · obtain ⟨hword, -⟩ := decodeCommand_eq_rddg_iff.mp hdec
    have hcmd : cmd = 0x0400#16 + BitVec.ofNat 16 n.toNat := by rw [BitVec.ofNat_toNat, hword]
    refine ⟨.closed alg m, some ((finalize alg (chain alg (pad m))).getD n.toNat 0), fun s hs => ?_⟩
    obtain ⟨t, ht, hclosed, hrsp, hbyte⟩ := perform_rddg hs hn
    exact ⟨t, hcmd ▸ ht, hclosed, by rw [hrsp, hbyte]; rfl⟩
  · refine actDetermined_of_fault fun s hs => ?_
    have hout : dlen (clearResponse s).alg ≤ n.toNat := by
      rw [clearResponse_alg, SessionClosed.alg hs]
      exact Nat.not_lt.mp hn
    refine ⟨takeFault .digestIndex (clearResponse s), ?_, rfl, rfl, rfl, rfl⟩
    rw [acceptWord_of_decode hdec, exec, execRddg, ifSession_of_legal _ (SessionClosed.st hs) (by decide)]
    exact respond_of_ge hout

/-- Every host act on every view is fully known. -/
theorem actDetermined (view : HostView) (a : HostAct) : ActDetermined view a := by
  cases a with
  | reset =>
    exact actDetermined_of_silent (view' := .unopened) fun s _ => ⟨_, perform_reset s, ⟨rfl, rfl⟩, rfl⟩
  | word cmd =>
    cases hdec : decodeCommand cmd with
    | error e => exact actDetermined_of_illFormed view hdec
    | ok i =>
      obtain ⟨-, henc⟩ := decodeCommand_eq_ok_iff.mp hdec
      cases i
      case init512 =>
        cases encode_init512.symm.trans henc
        exact actDetermined_init view .sha512
      case init384 =>
        cases encode_init384.symm.trans henc
        exact actDetermined_init view .sha384
      case data b =>
        cases henc
        cases view with
        | absorbing alg p => exact actDetermined_data alg p b
        | unopened | closed | faulted => exact actDetermined_of_other hdec (fun _ => rfl) nofun
      case final =>
        cases encode_final.symm.trans henc
        cases view with
        | absorbing alg m => exact actDetermined_final alg m
        | unopened | closed | faulted => exact actDetermined_of_other hdec (fun _ => rfl) nofun
      case rddg n =>
        cases view with
        | closed alg m => exact actDetermined_rddg alg m hdec
        | unopened | absorbing | faulted => exact actDetermined_of_other hdec (fun _ => rfl) nofun
      case p80 | pz | plen | ldw | exp | ldv | rnd | add | fin => cases henc

/-! ## Sequences of acts -/

/-- The responses to any host acts are the same for every core of a view. -/
theorem responses_determined (acts : List HostAct) (view : HostView) :
    ∃ out, ∀ s, view.Holds s → responses acts s = out := by
  induction acts generalizing view with
  | nil => exact ⟨[], fun _ _ => rfl⟩
  | cons a acts ih =>
    obtain ⟨view', out, hact⟩ := actDetermined view a
    obtain ⟨outs, hrest⟩ := ih view'
    refine ⟨out.toList ++ outs, fun s hs => ?_⟩
    obtain ⟨t, ht, hview, rfl⟩ := hact s hs
    simp only [responses, ht, hrest t hview]
    cases t.rspv <;> rfl

/-- Settles O40: an accepted `INIT*` brings both cores to the view of the empty session, where the acts after it are answered
alike. -/
theorem sessionForgetsThePast : Obligations.SessionForgetsThePast := by
  intro alg acts s₁ s₂ hidle₁ hidle₂
  obtain ⟨out, hout⟩ := responses_determined acts (.absorbing alg [])
  have hinit : ∀ s : State, s.ph = .idle → responses (.word (initWord alg) :: acts) s = out := fun s hidle => by
    obtain ⟨t, ht, habsorbed⟩ := perform_init alg hidle
    simp only [responses, ht, habsorbed.rspv_false, hout t habsorbed, Bool.false_eq_true, if_false]
  rw [hinit s₁ hidle₁, hinit s₂ hidle₂]

end Sys2Proof.Machine
end

section
/-! PROOFS. The padding (40_padder.md R90 to R92, R100): its contract, byte by byte, its length, and the blocks it is cut
into. -/

namespace Sys2Proof.Machine

open Sys2Proof

/-! ## The padded message by index -/

/-- The padded message is as long as its four parts (40_padder.md R90). -/
theorem length_pad (m : List Byte) : (pad m).length = m.length + 1 + zeroBytes m.length + 16 := by
  simp only [pad, List.length_append, List.length_singleton, List.length_replicate, length_be128]

/-- The padded message is whole blocks: the zero bytes make up what the other parts leave open (40_padder.md R91, R92). -/
theorem length_pad_mod (m : List Byte) : (pad m).length % 128 = 0 := by
  rw [length_pad, zeroBytes_eq]
  split <;> omega

/-- The message comes first. -/
theorem getElem?_pad_message {m : List Byte} {i : Nat} (hi : i < m.length) : (pad m)[i]? = m[i]? := by
  simp only [pad, List.append_assoc]
  exact List.getElem?_append_left hi

/-- The marker follows the message. -/
theorem getElem?_pad_marker (m : List Byte) : (pad m)[m.length]? = some 0x80#8 := by
  simp only [pad, List.append_assoc]
  rw [List.getElem?_append_right (le_refl _), Nat.sub_self]
  rfl

/-- The message with its marker is one byte longer. -/
theorem length_marked (m : List Byte) : (m ++ [0x80#8]).length = m.length + 1 := List.length_append

/-- The zero bytes follow the marker. -/
theorem getElem?_pad_zero {m : List Byte} {i : Nat} (hlo : m.length < i) (hhi : i < m.length + 1 + zeroBytes m.length) :
    (pad m)[i]? = some 0x00#8 := by
  have hmarked := length_marked m
  rw [pad, List.append_assoc, List.getElem?_append_right (by omega),
    List.getElem?_append_left (by rw [List.length_replicate]; omega), List.getElem?_replicate, if_pos (by omega)]

/-- The length field ends the padded message. -/
theorem getElem?_pad_length (m : List Byte) (k : Nat) :
    (pad m)[m.length + 1 + zeroBytes m.length + k]? = (be128 (8 * m.length))[k]? := by
  have hbefore : (m ++ [0x80#8] ++ List.replicate (zeroBytes m.length) 0x00#8).length =
      m.length + 1 + zeroBytes m.length := by
    rw [List.length_append, length_marked, List.length_replicate]
  rw [pad, ← hbefore, List.getElem?_append_right (Nat.le_add_right _ k), Nat.add_sub_cancel_left]

/-- Settles O41, part by part of the padded message. -/
theorem paddingMeetsItsContract : Obligations.PaddingMeetsItsContract := by
  intro m
  have hlen := length_pad m
  refine ⟨length_pad_mod m, by omega, fun i hi => getElem?_pad_message hi, getElem?_pad_marker m,
    fun i hlo hhi => getElem?_pad_zero hlo (by omega), fun k hk => ?_⟩
  rw [hlen, Nat.add_sub_cancel, getElem?_pad_length, getElem?_be128 _ hk]

/-! ## `Kpad` -/

/-- `Kpad` fills up to 128 bits before a block's end (40_padder.md R91). -/
theorem kpad_fills (lb : Nat) : (lb + 1 + kpad lb) % 1024 = 896 := by
  unfold kpad
  omega

/-- No shorter padding does (40_padder.md R91). -/
theorem kpad_minimal {lb k : Nat} (h : (lb + 1 + k) % 1024 = 896) : kpad lb ≤ k := by
  unfold kpad
  omega

/-- `Kpad` as 40_padder.md R91 writes it, with the remainder of a possibly negative number. -/
theorem kpad_eq_emod (lb : Nat) : (kpad lb : Int) = (895 - (lb : Int)) % 1024 := by
  unfold kpad
  omega

/-- The padding of whole bytes is a marker's seven zero bits and whole bytes (40_padder.md R91). -/
theorem kpad_bytes_mod (l : Nat) : kpad (8 * l) % 8 = 7 := by
  unfold kpad
  omega

/-- The zero bytes are `Kpad` without the marker's seven bits (40_padder.md R91). -/
theorem eight_mul_zeroBytes (l : Nat) : 8 * zeroBytes l + 7 = kpad (8 * l) := by
  have hmod := kpad_bytes_mod l
  unfold zeroBytes
  omega

/-! ## Blocks -/

/-- Cutting whole blocks off a byte string loses nothing of what they cover. -/
theorem flatten_blocks_eq_take (bytes : List Byte) (q : Nat) :
    ((List.range q).map fun k => (bytes.drop (128 * k)).take 128).flatten = bytes.take (128 * q) := by
  induction q with
  | zero => rfl
  | succ q ih =>
    rw [List.range_succ, List.map_append, List.flatten_append, ih, List.map_singleton, List.flatten_singleton,
      Nat.mul_succ, List.take_add]

/-- The blocks are the padded message cut up (40_padder.md R100). -/
theorem flatten_blocks (m : List Byte) : (blocks m).flatten = pad m := by
  have hmod := length_pad_mod m
  have hall : (pad m).length ≤ 128 * numBlocks m := by
    unfold numBlocks
    omega
  exact (flatten_blocks_eq_take (pad m) (numBlocks m)).trans (List.take_of_length_le hall)

/-- Every block has 128 bytes (40_padder.md R100). -/
theorem length_of_mem_blocks {m block : List Byte} (h : block ∈ blocks m) : block.length = 128 := by
  obtain ⟨k, hk, rfl⟩ := List.mem_map.mp h
  have hlt : k < (pad m).length / 128 := List.mem_range.mp hk
  rw [blockAt, List.length_take, List.length_drop]
  omega

/-- The number of blocks: one more than the whole ones of the message, or two more where the length field has no room
(40_padder.md R92). -/
theorem length_blocks (m : List Byte) :
    (blocks m).length = if m.length % 128 ≤ 111 then m.length / 128 + 1 else m.length / 128 + 2 := by
  rw [blocks, List.length_map, List.length_range, numBlocks, length_pad, zeroBytes_eq]
  split <;> omega

/-- Settles O42, from the arithmetic of `Kpad` and the cutting into blocks. -/
theorem paddingLengthAndBlockCount : Obligations.PaddingLengthAndBlockCount := by
  intro m l r
  have hzeros := eight_mul_zeroBytes l
  have hlen : (pad m).length = l + 1 + zeroBytes l + 16 := length_pad m
  exact ⟨kpad_fills (8 * l), fun _ => kpad_minimal, by exact_mod_cast kpad_eq_emod (8 * l), kpad_bytes_mod l, rfl,
    zeroBytes_eq l, hlen, by omega, length_blocks m, fun _ => length_of_mem_blocks, flatten_blocks m⟩

end Sys2Proof.Machine
end
